-- ==== Sys2Proof/Word.lean ====
section
/-! DEFINITION. The widths the spec works with (00_scope.md R6, R8) and the pixel record. -/

namespace Sys2Proof

/-- `u8`: one channel, one byte of the output (00_scope.md R8). -/
abbrev Byte := BitVec 8

/-- A START beat in packed form, 73 bits (30_encoding.md R79). -/
abbrev CfgBeat := BitVec 73

/-- A PIXEL beat in packed form, 32 bits (30_encoding.md R80). -/
abbrev PixBeat := BitVec 32

/-- "A pixel is a record `(r, g, b, a)` of four u8 values. `p == q` holds exactly when all four fields
are equal." (00_scope.md R8) -/
structure Pixel where
  r : Byte
  g : Byte
  b : Byte
  a : Byte
  deriving DecidableEq, Repr

end Sys2Proof
end

