-- ==== Sys2Proof/Config.lean ====
section
/-! DEFINITION. The block's fixed sizes (00_scope.md R6) and its one parameter that can be observed,
CACHE_INIT (00_scope.md R7). RESET_KIND and LATENCY are "not observable at transaction level, and a model
need not take them as arguments" (R7). -/

namespace Sys2Proof

/-- CACHE_INIT: "what a cache slot holds at the start of an encode" (00_scope.md R7, 41_color_cache.md R125). -/
inductive CacheInit where
  /-- `ZERO`: every slot holds the pixel (0,0,0,0), which can be hit. -/
  | zero
  /-- `EMPTY`: every slot is invalid, which nothing can hit. -/
  | empty
  deriving DecidableEq, Repr

/-- CACHE_SLOTS (00_scope.md R6). -/
abbrev cacheSlots : Nat := 64

/-- RUN_MAX, "62 pixels per run token" (00_scope.md R6). -/
abbrev runMax : BitVec 6 := 62

/-- "initial previous pixel: (0, 0, 0, 255)" (00_scope.md R6). -/
abbrev initialPrev : Pixel := ⟨0, 0, 0, 255⟩

/-- The zero sentinel of CACHE_INIT = ZERO (41_color_cache.md R125). -/
abbrev zeroPixel : Pixel := ⟨0, 0, 0, 0⟩

end Sys2Proof
end

