-- ==== Sys2Proof/Syntax.lean ====
section
/-! DEFINITION. The 13 rows of spec/opcode_table.json as one inductive, and what one transfer into the
block carries. -/

namespace Sys2Proof

/-- One constructor per row of spec/opcode_table.json, in the table's order. The operands of a token, of the
header and of a beat are its payload fields as 30_encoding.md R71, R74, R79 and R80 name them. -/
inductive Instr where
  /-- OP_INDEX `00iiiiii` (43_opcode_serializer.md R166). -/
  | opIndex (idx : BitVec 6)
  /-- OP_DIFF `01rrggbb`, the biased fields `dr+2, dg+2, db+2` (R167, 30_encoding.md R75). -/
  | opDiff (r g b : BitVec 2)
  /-- OP_LUMA `10gggggg rrrrbbbb`, the biased fields `dg+32, dr-dg+8, db-dg+8` (R168). -/
  | opLuma (g : BitVec 6) (r b : BitVec 4)
  /-- OP_RUN `11llllll`, the biased field `run length - 1` (R164). -/
  | opRun (l : BitVec 6)
  /-- OP_RGB `FE r g b` (R169). -/
  | opRgb (r g b : Byte)
  /-- OP_RGBA `FF r g b a` (R170). -/
  | opRgba (r g b a : Byte)
  /-- HEADER, 14 bytes: width, height, channels, colour space (40_start_header.md R102). -/
  | header (w h : BitVec 32) (c : Byte) (cs : BitVec 1)
  /-- END_MARKER, 8 bytes (44_byte_packer_termination.md R190). -/
  | endMarker
  /-- START, a beat of the configuration channel (40_start_header.md R100). -/
  | start (w h : BitVec 32) (ch : Byte) (cs : BitVec 1)
  /-- PIXEL, a beat of the pixel channel (42_pixel_selector.md R140). -/
  | pixel (r g b a : Byte)
  /-- DRAIN, the handshake of the output channel (44_byte_packer_termination.md R191). -/
  | drain
  /-- SINKFAIL, the signal `sink_err` (60_exceptions.md R213). -/
  | sinkfail
  /-- RESET, the signal `rst` (70_reset_and_hazards.md R240). -/
  | reset
  deriving DecidableEq, Repr

/-- What one transfer into the block carries: a beat of a channel, one of the three signals that have no
encoding (30_encoding.md R81), or the bytes of one output unit (a token, the header, the end marker). -/
inductive Beat where
  | cfg (b : CfgBeat)
  | pix (b : PixBeat)
  | outReady
  | sinkErr
  | rst
  | outUnit (bytes : List Byte)
  deriving DecidableEq, Repr

/-- Why the bytes of an output unit stand for no row of the table. -/
inductive DecodeError where
  /-- No byte at all. -/
  | noBytes
  /-- Fewer bytes than the first byte asks for (30_encoding.md R76). -/
  | truncated
  /-- More bytes than the first byte asks for (30_encoding.md R76). -/
  | trailingBytes
  /-- 14 bytes that do not begin with `71 6F 69 66` (30_encoding.md R72). -/
  | badMagic
  /-- 14 bytes whose last is neither 0 nor 1 (30_encoding.md R71, R77). -/
  | badColorSpace
  /-- 8 bytes that are not the end marker (30_encoding.md R73). -/
  | badEndMarker
  deriving DecidableEq, Repr

end Sys2Proof
end

