-- ==== Sys2Proof/WellFormed.lean ====
section
/-! DEFINITION. Which instruction terms are instructions of the block. -/

namespace Sys2Proof

/-- A run token's field: "l = runLength-1, in [0, 61]. The values 62 and 63 are not runs"
(30_encoding.md R74, R77). -/
def runFieldOk (l : BitVec 6) : Bool := decide (l.toNat ≤ 61)

/-- A channel count: "The legal values are 3 and 4" (10_state.md R22, 30_encoding.md R77). -/
def channelsOk (c : Byte) : Bool := c == 3 || c == 4

/-- A dimension: "width and height are unsigned 32-bit, each > 0" (00_scope.md R6). -/
def dimOk (w : BitVec 32) : Bool := w != 0

/-- The block's instructions. Every START beat and every PIXEL beat is one: "Validation happens when the
command runs" (30_encoding.md R79, R80). -/
def Instr.wellFormed : Instr → Bool
  | .opIndex _ => true
  | .opDiff _ _ _ => true
  | .opLuma _ _ _ => true
  | .opRun l => runFieldOk l
  | .opRgb _ _ _ => true
  | .opRgba _ _ _ _ => true
  | .header w h c _ => dimOk w && dimOk h && channelsOk c
  | .endMarker => true
  | .start _ _ _ _ => true
  | .pixel _ _ _ _ => true
  | .drain => true
  | .sinkfail => true
  | .reset => true

/-- A token of the stream's body (30_encoding.md R74). -/
def Instr.isToken : Instr → Bool
  | .opIndex _ => true
  | .opDiff _ _ _ => true
  | .opLuma _ _ _ => true
  | .opRun _ => true
  | .opRgb _ _ _ => true
  | .opRgba _ _ _ _ => true
  | .header _ _ _ _ => false
  | .endMarker => false
  | .start _ _ _ _ => false
  | .pixel _ _ _ _ => false
  | .drain => false
  | .sinkfail => false
  | .reset => false

/-- A command the host can give: one of the five steps of 10_state.md R20. -/
def Instr.isCommand : Instr → Bool
  | .opIndex _ => false
  | .opDiff _ _ _ => false
  | .opLuma _ _ _ => false
  | .opRun _ => false
  | .opRgb _ _ _ => false
  | .opRgba _ _ _ _ => false
  | .header _ _ _ _ => false
  | .endMarker => false
  | .start _ _ _ _ => true
  | .pixel _ _ _ _ => true
  | .drain => true
  | .sinkfail => true
  | .reset => true

end Sys2Proof
end

