-- ==== Sys2Proof/Decode.lean ====
section
/-! DEFINITION. From what a transfer carries to an instruction, and back. The three places of the stream
have their own readings (30_encoding.md R70, R76): the header at its start, tokens in its body, the end
marker at its end. -/

namespace Sys2Proof

/-! ## The decoder -/

/-- A START beat: width [72:41], height [40:9], channels [8:1], colorspace [0]. "Every 73-bit value is a
START command." (30_encoding.md R79) -/
def decodeStart (b : CfgBeat) : Instr :=
  .start (b.extractLsb' 41 32) (b.extractLsb' 9 32) (b.extractLsb' 1 8) (b.extractLsb' 0 1)

/-- A PIXEL beat: r in 31:24, g in 23:16, b in 15:8, a in 7:0. "Every 32-bit value is a valid PIXEL."
(30_encoding.md R80) -/
def decodePixel (b : PixBeat) : Instr :=
  .pixel (b.extractLsb' 24 8) (b.extractLsb' 16 8) (b.extractLsb' 8 8) (b.extractLsb' 0 8)

/-- The first token of a byte sequence and the bytes after it. "The two 8-bit tags are tested first."
(30_encoding.md R76) -/
def decodeToken : List Byte → Except DecodeError (Instr × List Byte)
  | [] => .error .noBytes
  | b0 :: rest =>
    if b0 = 0xFE then
      match rest with
      | r :: g :: b :: rest' => .ok (.opRgb r g b, rest')
      | _ => .error .truncated
    else if b0 = 0xFF then
      match rest with
      | r :: g :: b :: a :: rest' => .ok (.opRgba r g b a, rest')
      | _ => .error .truncated
    else if b0.extractLsb' 6 2 = 0b00 then .ok (.opIndex (b0.extractLsb' 0 6), rest)
    else if b0.extractLsb' 6 2 = 0b01 then
      .ok (.opDiff (b0.extractLsb' 4 2) (b0.extractLsb' 2 2) (b0.extractLsb' 0 2), rest)
    else if b0.extractLsb' 6 2 = 0b10 then
      match rest with
      | b1 :: rest' => .ok (.opLuma (b0.extractLsb' 0 6) (b1.extractLsb' 4 4) (b1.extractLsb' 0 4), rest')
      | _ => .error .truncated
    else .ok (.opRun (b0.extractLsb' 0 6), rest)

/-- A big-endian u32 (20_memory.md R52): the first byte is bits 31:24. -/
def ofBe32 (b3 b2 b1 b0 : Byte) : BitVec 32 := b3 ++ b2 ++ b1 ++ b0

/-- The 14 bytes at the start of a stream (30_encoding.md R71). The channel count is read as it stands; the
header serializer is what refuses a count other than 3 or 4 (40_start_header.md R101). -/
def decodeHeader : List Byte → Except DecodeError Instr
  | [m0, m1, m2, m3, w3, w2, w1, w0, h3, h2, h1, h0, c, cs] =>
    if ¬ (m0 = 0x71 ∧ m1 = 0x6F ∧ m2 = 0x69 ∧ m3 = 0x66) then .error .badMagic
    else if ¬ (cs.extractLsb' 1 7 = 0) then .error .badColorSpace
    else .ok (.header (ofBe32 w3 w2 w1 w0) (ofBe32 h3 h2 h1 h0) c (cs.extractLsb' 0 1))
  | bs => if bs.length < 14 then .error .truncated else .error .trailingBytes

/-- The 8 bytes at the end of a stream (30_encoding.md R73). -/
def decodeEndMarker (bs : List Byte) : Except DecodeError Instr :=
  if bs = [0x00, 0x00, 0x00, 0x00, 0x00, 0x00, 0x00, 0x01] then .ok .endMarker else .error .badEndMarker

/-- The bytes of exactly one token. -/
def decodeOneToken (bs : List Byte) : Except DecodeError Instr :=
  match decodeToken bs with
  | .error e => .error e
  | .ok (i, []) => .ok i
  | .ok (_, _ :: _) => .error .trailingBytes

/-- The bytes of exactly one output unit. Tokens have 1, 2, 4 or 5 bytes, the end marker 8, the header 14
(30_encoding.md R71, R73, R74), so the length says which reading applies. -/
def decodeUnit (bs : List Byte) : Except DecodeError Instr :=
  if bs.length = 14 then decodeHeader bs
  else if bs.length = 8 then decodeEndMarker bs
  else decodeOneToken bs

/-- The instruction a transfer stands for. DRAIN, SINKFAIL and RESET are "single signals with no encoding"
(30_encoding.md R81). -/
def decode : Beat → Except DecodeError Instr
  | .cfg b => .ok (decodeStart b)
  | .pix b => .ok (decodePixel b)
  | .outReady => .ok .drain
  | .sinkErr => .ok .sinkfail
  | .rst => .ok .reset
  | .outUnit bs => decodeUnit bs

/-! ## The encoder, from the tables of 30_encoding.md -/

/-- The bytes of a big-endian u32, most significant first (20_memory.md R52). -/
def be32 (v : BitVec 32) : List Byte :=
  [v.extractLsb' 24 8, v.extractLsb' 16 8, v.extractLsb' 8 8, v.extractLsb' 0 8]

/-- "qoif" (30_encoding.md R72). -/
def magicBytes : List Byte := [0x71, 0x6F, 0x69, 0x66]

/-- The end marker (30_encoding.md R73). -/
def endMarkerBytes : List Byte := [0x00, 0x00, 0x00, 0x00, 0x00, 0x00, 0x00, 0x01]

/-- The 14 header bytes (30_encoding.md R71). -/
def headerBytes (w h : BitVec 32) (c : Byte) (cs : BitVec 1) : List Byte :=
  magicBytes ++ be32 w ++ be32 h ++ [c, (0#7 ++ cs : BitVec 8)]

/-- The transfer that stands for an instruction: byte patterns of 30_encoding.md R74, R71, R73, and the beats
of R79 and R80. -/
def encode : Instr → Beat
  | .opIndex idx => .outUnit [(0b00#2 ++ idx : BitVec 8)]
  | .opDiff r g b => .outUnit [(0b01#2 ++ r ++ g ++ b : BitVec 8)]
  | .opLuma g r b => .outUnit [(0b10#2 ++ g : BitVec 8), (r ++ b : BitVec 8)]
  | .opRun l => .outUnit [(0b11#2 ++ l : BitVec 8)]
  | .opRgb r g b => .outUnit [0xFE, r, g, b]
  | .opRgba r g b a => .outUnit [0xFF, r, g, b, a]
  | .header w h c cs => .outUnit (headerBytes w h c cs)
  | .endMarker => .outUnit endMarkerBytes
  | .start w h ch cs => .cfg (w ++ h ++ ch ++ cs : BitVec 73)
  | .pixel r g b a => .pix (r ++ g ++ b ++ a : BitVec 32)
  | .drain => .outReady
  | .sinkfail => .sinkErr
  | .reset => .rst

/-- The bytes an output unit puts into the stream; none for a command. -/
def unitBytes (i : Instr) : List Byte :=
  match encode i with
  | .outUnit bs => bs
  | .cfg _ => []
  | .pix _ => []
  | .outReady => []
  | .sinkErr => []
  | .rst => []

/-! ## The opcode table's numbering -/

/-- `n` bytes of a number, the first byte its bits 7..0. -/
def leBytes : Nat → Nat → List Byte
  | 0, _ => []
  | n + 1, w => BitVec.ofNat 8 (w % 256) :: leBytes n (w / 256)

/-- `n` bytes of a number, the first byte its most significant. -/
def beBytes (n w : Nat) : List Byte := (leBytes n w).reverse

/-- The byte layouts of an output unit that the table's numbering admits for `m` declared bytes. Byte 0 is
bits 7..0 for the rows of bytes; one declared byte may be the tag of a longer token. For HEADER and END_MARKER
the table's match is one number, of bytes 0-3 and of all 8 bytes, "read as a big-endian" word, so their words
are laid out most significant byte first as well (log entry 10). -/
def tableLayouts (m w : Nat) : List (List Byte) :=
  ((if m = 1 then [1, 2, 4, 5] else [m]).map (leBytes · w))
    ++ (if m = 4 ∨ m = 14 then
          [beBytes 4 w ++ beBytes 4 (w / 2 ^ 32) ++ beBytes 4 (w / 2 ^ 64) ++ leBytes 2 (w / 2 ^ 96)]
        else [])
    ++ (if m = 8 then [beBytes 8 w] else [])

/-- Whether an output unit's bytes decode. -/
def unitDecodes (bs : List Byte) : Bool :=
  match decodeUnit bs with
  | .ok _ => true
  | .error _ => false

/-- The transfer that a row's bits `w`, numbered as the table numbers them, stand for: a START beat has 73
bits (80 in whole bytes), a PIXEL beat 32; anything else is an output unit. Of 32 bits, the number that
carries an OP_RGB's tag byte or the header's magic is read as that row (log entry 10). -/
def tableBeat (nbits w : Nat) : Beat :=
  if (nbits = 73 ∨ nbits = 80) ∧ w < 2 ^ 73 then .cfg (BitVec.ofNat 73 w)
  else
    match (tableLayouts ((nbits + 7) / 8) w).find? unitDecodes with
    | some bs => .outUnit bs
    | none => if nbits = 32 then .pix (BitVec.ofNat 32 w) else .outUnit (leBytes ((nbits + 7) / 8) w)

/-- The instruction the decoder reads from a row's bits. -/
def decodeTableWord (nbits w : Nat) : Option Instr :=
  match decode (tableBeat nbits w) with
  | .ok i => some i
  | .error _ => none

end Sys2Proof
end

