-- ==== Sys2Proof/Machine/State.lean ====
section
/-! DEFINITION. The state of one instance of the block (10_state.md section 3), the host's side of its ports
as plain data, and the reasons a step can stop. -/

namespace Sys2Proof.Machine

/-- MODE, the encoder's control state (10_state.md R29). -/
inductive Mode where
  /-- 0: no encode has started since RESET. -/
  | idle
  /-- 1: a valid START was taken and pixels are still to come. -/
  | encoding
  /-- 2: the last pixel was taken and the end marker emitted. -/
  | done
  /-- 3: an encode failed. -/
  | error
  deriving DecidableEq, Repr

/-- ERR, why the last encode failed (10_state.md R30). -/
inductive Err where
  /-- 0: no error. -/
  | none
  /-- 1: START with width = 0 or height = 0 (60_exceptions.md R211). -/
  | invalidDimensions
  /-- 2: START with a channel count not in {3, 4} (60_exceptions.md R212). -/
  | unsupportedChannelCount
  /-- 3: SINKFAIL during an encode (60_exceptions.md R213). -/
  | sinkFailure
  deriving DecidableEq, Repr

/-- The listed slots of CACHE: pairs of a slot's index and the pixel it holds. The cache's unit of access is one
whole 32-bit entry (20_memory.md R51, R53), so a cell is a slot and not a byte (log entry 8). -/
abbrev Memory := List (Nat × Pixel)

/-- One transfer on the output channel: `out_byte` and `out_last` (10_state.md R24). -/
structure Transfer where
  byte : Byte
  last : Bool
  deriving DecidableEq, Repr

/-- Which of the host's five moves reaches the block next (10_state.md R22-R27; log entry 1). -/
inductive Turn where
  /-- The configuration channel: its oldest offered START beat, if any. -/
  | cfg
  /-- The pixel channel: its oldest offered PIXEL beat, if any. -/
  | pix
  /-- The output channel: its oldest offered DRAIN, if any. -/
  | out
  /-- The host asserts `sink_err`. -/
  | sinkErr
  /-- The host asserts `rst`. -/
  | rst
  deriving DecidableEq, Repr

/-- The state of one instance (10_state.md R20-R43, "each instance has its own copy of every state element"). -/
structure State where
  /-- MODE (R29). -/
  mode : Mode
  /-- ERR (R30). -/
  err : Err
  /-- DESC_W, DESC_H, DESC_CH, DESC_CS: the descriptor latches (R32). -/
  descW : BitVec 32
  descH : BitVec 32
  descCh : Byte
  descCs : BitVec 1
  /-- PIX_REMAIN, the pixels still to take (R33). -/
  pixRemain : BitVec 64
  /-- OUT_COUNT, the number of bytes in OUT modulo 2^64 (R34). -/
  outCount : BitVec 64
  /-- PREV (R35). -/
  prev : Pixel
  /-- RUN, the pending run length (R36). -/
  run : BitVec 6
  /-- CACHE (R37); with `cacheInit` it says what every slot reads as. -/
  cache : Memory
  /-- OUT (R38). -/
  out : List Byte
  /-- SENT (R38). -/
  sent : Nat
  /-- The parameter CACHE_INIT (00_scope.md R7). No step writes it (log entry 7). -/
  cacheInit : CacheInit
  /-- START beats the host offers, oldest first (R22, R28). -/
  cfgOffers : List CfgBeat
  /-- PIXEL beats the host offers, oldest first (R23, R28). -/
  pixOffers : List PixBeat
  /-- How many DRAINs the sink holds offered: `out_ready`, which carries no data (R24, R28; log entry 3). -/
  outOffers : Nat
  /-- The order of the host's moves, next first (R28; log entry 1). -/
  turns : List Turn
  /-- Every transfer the sink has received, oldest first (R24, 44_byte_packer_termination.md R193). -/
  sink : List Transfer
  /-- The MODEL's own: an output unit handed straight to the serializers (log entry 4). -/
  bench : Option (List Byte)
  deriving DecidableEq, Repr

/-- The hardware has no fault: its errors are a state it goes on from (60_exceptions.md R215-R217). -/
inductive Fault where
  deriving DecidableEq, Repr

/-- Why a step gives no next state. -/
inductive Refusal where
  /-- An instruction whose meaning is not written yet. No arm of `exec` uses it. Safe. -/
  | notModelled (mnemonic : String)
  /-- `execOpRun`: a run field of 62 or 63, "never run tokens" (30_encoding.md R77); no decoded token has it.
  Safe: the block emits no such byte (43_opcode_serializer.md R171). -/
  | runFieldReserved
  /-- `step`: the bytes in `bench` are no output unit. Only a bench puts bytes there. Safe. -/
  | undecodable (e : DecodeError)
  deriving DecidableEq, Repr

/-- The block right after RESET (10_state.md R43, 70_reset_and_hazards.md R240) with CACHE_INIT at its default
ZERO (41_color_cache.md R125), the host offering nothing and the sink holding nothing (log entries 3, 11). -/
def State.reset : State where
  mode := .idle
  err := .none
  descW := 0
  descH := 0
  descCh := 0
  descCs := 0
  pixRemain := 0
  outCount := 0
  prev := initialPrev
  run := 0
  cache := []
  out := []
  sent := 0
  cacheInit := .zero
  cfgOffers := []
  pixOffers := []
  outOffers := 0
  turns := []
  sink := []
  bench := none

end Sys2Proof.Machine
end

