-- ==== Sys2Proof/Machine/Operands.lean ====
section
/-! DEFINITION. What a step computes from its operands: normalisation, the hash, the deltas and the biased
payload fields. -/

namespace Sys2Proof.Machine

/-- `wrap8(x) = x mod 256` (00_scope.md R8). -/
def wrap8 (x : Int) : Byte := BitVec.ofInt 8 x

/-- `sext_8(v)` "reads an 8-bit v as two's complement, in [-128, 127]" (00_scope.md R8). -/
def sext8 (v : Byte) : Int := v.toInt

/-- Normalise (42_pixel_selector.md R141): alpha is 255 unless DESC_CH = 4. -/
def normalise (descCh : Byte) (pin : Pixel) : Pixel :=
  if descCh = 4 then pin else { pin with a := 255 }

/-- The weighted sum of the hash, in [0, 6630] (41_color_cache.md R120). -/
def weightedSum (p : Pixel) : Nat := 3 * p.r.toNat + 5 * p.g.toNat + 7 * p.b.toNat + 11 * p.a.toNat

/-- `hash(p) = (3*r + 5*g + 7*b + 11*a) mod 64` (41_color_cache.md R120). -/
def hashOf (p : Pixel) : BitVec 6 := BitVec.ofNat 6 (weightedSum p % 64)

/-- One channel's delta: `sext_8(wrap8(current - previous))` (43_opcode_serializer.md R160). -/
def delta (current previous : Byte) : Int := sext8 (wrap8 ((current.toNat : Int) - (previous.toNat : Int)))

/-- The three deltas of Deltas(p, PREV) (43_opcode_serializer.md R160). -/
structure DeltaRgb where
  dr : Int
  dg : Int
  db : Int
  deriving DecidableEq, Repr

/-- Deltas(p, PREV) (43_opcode_serializer.md R160). Alpha has no delta. -/
def deltas (p prev : Pixel) : DeltaRgb :=
  { dr := delta p.r prev.r, dg := delta p.g prev.g, db := delta p.b prev.b }

/-- A biased unsigned field of `n` bits (30_encoding.md R75): "every field is a biased unsigned value". -/
def biased (n : Nat) (bias value : Int) : BitVec n := BitVec.ofInt n (value + bias)

/-- The 64-bit pixel count, `zext_64(w) * zext_64(h)` (40_start_header.md R103). -/
def pixelCount (w h : BitVec 32) : BitVec 64 := w.setWidth 64 * h.setWidth 64

/-- `zext_8(DESC_CS)` (30_encoding.md R71). -/
def colorSpaceByte (cs : BitVec 1) : Byte := cs.setWidth 8

end Sys2Proof.Machine
end

