-- ==== Sys2Proof/Machine/Cache.lean ====
section
/-! DEFINITION. CACHE: 64 slots reached by the 6-bit hash (20_memory.md R50, 41_color_cache.md R120-R125), kept
as the list of the slots that differ from what an unlisted slot reads as (log entry 8). -/

namespace Sys2Proof.Machine

/-- What a slot that is not listed reads as: what CacheInit leaves in it (41_color_cache.md R125). Under ZERO
the pixel (0,0,0,0); under EMPTY `empty`, that is V[h] = 0. -/
def Memory.unlisted : CacheInit → Option Pixel
  | .zero => some zeroPixel
  | .empty => none

/-- The listed pixel at an index. -/
def Memory.find : Memory → Nat → Option Pixel
  | [], _ => none
  | (k, q) :: m, h => if k = h then some q else Memory.find m h

/-- What slot `h` reads as: "stored pixel or empty" (41_color_cache.md R122). -/
def Memory.read (ci : CacheInit) (m : Memory) (h : Nat) : Option Pixel :=
  match Memory.find m h with
  | some q => some q
  | none => Memory.unlisted ci

/-- List a pixel at an index, in rising order. -/
def Memory.insert (h : Nat) (p : Pixel) : Memory → Memory
  | [] => [(h, p)]
  | (k, q) :: m =>
    if h < k then (h, p) :: (k, q) :: m
    else if h = k then (h, p) :: m
    else (k, q) :: Memory.insert h p m

/-- Take an index off the list. -/
def Memory.erase (h : Nat) : Memory → Memory
  | [] => []
  | (k, q) :: m => if k = h then m else (k, q) :: Memory.erase h m

/-- Make slot `h` hold `p`, keeping the canonical form. -/
def Memory.write (ci : CacheInit) (h : Nat) (p : Pixel) (m : Memory) : Memory :=
  if Memory.unlisted ci = some p then Memory.erase h m else Memory.insert h p m

/-- The canonical form from index `lo` on: indices rise strictly, each names one of the 64 slots, and no entry
equals what an unlisted slot reads as. -/
def Memory.wfFrom (ci : CacheInit) : Nat → Memory → Bool
  | _, [] => true
  | lo, (k, q) :: m =>
    decide (lo ≤ k) && decide (k < cacheSlots) && decide (Memory.unlisted ci ≠ some q) && Memory.wfFrom ci (k + 1) m

/-- The canonical form: equal caches are equal lists. -/
def Memory.wf (ci : CacheInit) (m : Memory) : Bool := Memory.wfFrom ci 0 m

/-- probe(h) (41_color_cache.md R122); `none` is `empty`. -/
def probe (h : BitVec 6) (s : State) : Option Pixel := Memory.read s.cacheInit s.cache h.toNat

/-- store(h, p): "unconditionally overwrites" (41_color_cache.md R123). -/
def store (h : BitVec 6) (p : Pixel) (s : State) : State :=
  { s with cache := Memory.write s.cacheInit h.toNat p s.cache }

/-- hit(p): "full four-channel equality" with the slot at hash(p) (41_color_cache.md R124). -/
def hit (p : Pixel) (s : State) : Bool := decide (probe (hashOf p) s = some p)

/-- CacheInit(): every slot back to what the parameter CACHE_INIT says (41_color_cache.md R125). -/
def initCache (s : State) : State := { s with cache := [] }

end Sys2Proof.Machine
end

