-- ==== Sys2Proof/Machine/Flags.lean ====
section
/-! DEFINITION. The status fields, the port outputs that are views of the state, and every condition a step
tests. -/

namespace Sys2Proof.Machine

/-- The 2-bit value of MODE (10_state.md R29). -/
def Mode.code : Mode → BitVec 2
  | .idle => 0
  | .encoding => 1
  | .done => 2
  | .error => 3

/-- The 2-bit value of ERR (10_state.md R30, 60_exceptions.md R210). -/
def Err.code : Err → BitVec 2
  | .none => 0
  | .invalidDimensions => 1
  | .unsupportedChannelCount => 2
  | .sinkFailure => 3

/-- `STATUS = {ERR[1:0], MODE[1:0]}` (10_state.md R31). -/
def status (s : State) : BitVec 4 := s.err.code ++ s.mode.code

/-- OUTQ, "the bytes emitted and not yet transferred" (10_state.md R38). -/
def outQueue (s : State) : List Byte := s.out.drop s.sent

/-- `cfg_ready`: START's enabling condition, "MODE ≠ ENCODING and OUTQ is empty, that is SENT = |OUT|"
(10_state.md R22, 40_start_header.md R100). -/
def cfgReady (s : State) : Bool := decide (s.mode ≠ .encoding) && decide (s.sent = s.out.length)

/-- `pix_ready`: "1 only while MODE = ENCODING" (10_state.md R23, 42_pixel_selector.md R142). -/
def pixReady (s : State) : Bool := decide (s.mode = .encoding)

/-- `out_valid` and DRAIN's enabling condition: "OUTQ is not empty (SENT < |OUT|) and MODE ≠ ERROR"
(10_state.md R24, 44_byte_packer_termination.md R191; log entry 14). -/
def outValid (s : State) : Bool := decide (s.sent < s.out.length) && decide (s.mode ≠ .error)

/-- `out_byte`, the byte `OUT[SENT]` (10_state.md R24); it means something only while `out_valid` = 1. -/
def outByte (s : State) : Byte := s.out.getD s.sent 0

/-- `out_last`: "MODE == DONE and SENT == |OUT| - 1" (44_byte_packer_termination.md R191, R192). -/
def outLast (s : State) : Bool := decide (s.mode = .done) && decide (s.sent + 1 = s.out.length)

/-- When SINKFAIL raises: "MODE == ENCODING or (MODE == DONE and SENT < |OUT|)" (60_exceptions.md R213). -/
def sinkFailRaises (s : State) : Bool :=
  decide (s.mode = .encoding) || (decide (s.mode = .done) && decide (s.sent < s.out.length))

/-- Whether a command is taken in this state; one that is not is held (00_scope.md R9). SINKFAIL and RESET are
always taken (60_exceptions.md R213, 70_reset_and_hazards.md R240). -/
def enabled : Instr → State → Bool
  | .start _ _ _ _, s => cfgReady s
  | .pixel _ _ _ _, s => pixReady s
  | .drain, s => outValid s
  | .sinkfail, _ => true
  | .reset, _ => true
  | .opIndex _, _ => true
  | .opDiff _ _ _, _ => true
  | .opLuma _ _ _, _ => true
  | .opRun _, _ => true
  | .opRgb _ _ _, _ => true
  | .opRgba _ _ _ _, _ => true
  | .header _ _ _ _, _ => true
  | .endMarker, _ => true

/-- What is wrong with a descriptor, dimensions first (40_start_header.md R101). -/
def descriptorError (w h : BitVec 32) (ch : Byte) : Option Err :=
  if w = 0 ∨ h = 0 then some .invalidDimensions
  else if ch ≠ 3 ∧ ch ≠ 4 then some .unsupportedChannelCount
  else none

/-- The run selector's `same`: all four channels equal (42_pixel_selector.md R143). -/
def same (p prev : Pixel) : Bool :=
  p.r == prev.r && p.g == prev.g && p.b == prev.b && p.a == prev.a

/-- alphaSame(p, PREV) (43_opcode_serializer.md R160). -/
def alphaSame (p prev : Pixel) : Bool := p.a == prev.a

/-- SmallDiff (43_opcode_serializer.md R162). -/
def smallDiff (d : DeltaRgb) : Bool :=
  decide (-2 ≤ d.dr ∧ d.dr ≤ 1) && decide (-2 ≤ d.dg ∧ d.dg ≤ 1) && decide (-2 ≤ d.db ∧ d.db ≤ 1)

/-- Luma (43_opcode_serializer.md R163), on integers, "not wrapped again" (R161). -/
def luma (d : DeltaRgb) : Bool :=
  decide (-32 ≤ d.dg ∧ d.dg ≤ 31) && decide (-8 ≤ d.dr - d.dg ∧ d.dr - d.dg ≤ 7)
    && decide (-8 ≤ d.db - d.dg ∧ d.db - d.dg ≤ 7)

end Sys2Proof.Machine
end

