-- ==== Sys2Proof/Machine/Ops.lean ====
section
/-! DEFINITION. The named operations a step is made of: Emit, the six token serializers, the header and the
end marker, the encoder's initial state, and error entry. -/

namespace Sys2Proof.Machine

/-- Emit(b): "appends one byte b to the output sequence OUT and adds 1 to OUT_COUNT" (00_scope.md R9). -/
def emit (b : Byte) (s : State) : State := { s with out := s.out ++ [b], outCount := s.outCount + 1 }

/-- `Emit(b0, ..., bn)` is `Emit(b0); ...; Emit(bn)` in that order (00_scope.md R9). -/
def emitAll : List Byte → State → State
  | [], s => s
  | b :: bs, s => emitAll bs (emit b s)

/-- `raise E`, error entry (60_exceptions.md R215). It is the block's one trap: no state is saved, and START or
RESET leaves it (R217). It clears RUN in every state, a failed START's too: 40_start_header.md R100 says a failed START
"does not write" RUN, and R215 is followed (log entry 19). -/
def raise (e : Err) (s : State) : State :=
  { s with
    err := e
    mode := .error
    run := 0
    pixRemain := 0
    out := s.out.take s.sent
    outCount := BitVec.ofNat 64 (s.out.take s.sent).length }

/-! ## The op-code serializer -/

/-- EmitIndex(h): `Emit(0x00 | h)` (43_opcode_serializer.md R166). -/
def emitIndex (idx : BitVec 6) (s : State) : State := emit (0x00 ||| idx.setWidth 8) s

/-- EmitDiff on its biased fields: `Emit(0x40 | r << 4 | g << 2 | b)` (43_opcode_serializer.md R167). -/
def emitDiff (r g b : BitVec 2) (s : State) : State :=
  emit (0x40 ||| (r.setWidth 8 <<< 4) ||| (g.setWidth 8 <<< 2) ||| b.setWidth 8) s

/-- EmitLuma on its biased fields: `Emit(0x80 | g)`, `Emit(r << 4 | b)` (43_opcode_serializer.md R168). -/
def emitLuma (g : BitVec 6) (r b : BitVec 4) (s : State) : State :=
  emit ((r.setWidth 8 <<< 4) ||| b.setWidth 8) (emit (0x80 ||| g.setWidth 8) s)

/-- The run token with field `l`, and RUN <- 0 (43_opcode_serializer.md R164). -/
def emitRun (l : BitVec 6) (s : State) : State := { emit (0xC0 ||| l.setWidth 8) s with run := 0 }

/-- FlushRun(): `Emit(0xC0 | (RUN - 1)); RUN <- 0` (43_opcode_serializer.md R164). -/
def flushRun (s : State) : State := emitRun (s.run - 1) s

/-- EmitRGB(p) (43_opcode_serializer.md R169). -/
def emitRgb (r g b : Byte) (s : State) : State := emitAll [0xFE, r, g, b] s

/-- EmitRGBA(p) (43_opcode_serializer.md R170). -/
def emitRgba (r g b a : Byte) (s : State) : State := emitAll [0xFF, r, g, b, a] s

/-! ## Header serializer and end of stream -/

/-- EmitHeader() on the descriptor's four values (40_start_header.md R102). -/
def emitHeader (w h : BitVec 32) (ch : Byte) (cs : BitVec 1) (s : State) : State :=
  let s1 := emitAll magicBytes s
  let s2 := emitAll (be32 w) s1
  let s3 := emitAll (be32 h) s2
  emit (colorSpaceByte cs) (emit ch s3)

/-- `serializeHeader`: "Fails with `InvalidDimensions` if width or height is 0; fails with
`UnsupportedChannelCount` if channels ∉ {3,4}" (40_start_header.md R101), else the 14 bytes (log entry 5). -/
def serializeHeader (w h : BitVec 32) (ch : Byte) (cs : BitVec 1) (s : State) : State :=
  match descriptorError w h ch with
  | some e => raise e s
  | none => emitHeader w h ch cs s

/-- Finish(): the end marker, MODE <- DONE (44_byte_packer_termination.md R190). -/
def finish (s : State) : State := { emitAll endMarkerBytes s with mode := .done }

/-! ## Encode start -/

/-- "a new output stream": `OUT <- []; SENT <- 0; OUT_COUNT <- 0` (40_start_header.md R100). -/
def newStream (s : State) : State := { s with out := [], sent := 0, outCount := 0 }

/-- `DESC_W <- w; DESC_H <- h; DESC_CH <- ch; DESC_CS <- cs` (40_start_header.md R100). -/
def latchDescriptor (w h : BitVec 32) (ch : Byte) (cs : BitVec 1) (s : State) : State :=
  { s with descW := w, descH := h, descCh := ch, descCs := cs }

/-- InitEncoderState(w, h) (40_start_header.md R103). -/
def initEncoderState (w h : BitVec 32) (s : State) : State :=
  { initCache { s with prev := initialPrev, run := 0 } with pixRemain := pixelCount w h }

/-! ## The pixel step's parts -/

/-- The token of a cache miss (42_pixel_selector.md R146, 43_opcode_serializer.md R172): DIFF, LUMA or RGB
while the alpha is unchanged, else RGBA. -/
def emitMiss (p prev : Pixel) (s : State) : State :=
  let d := deltas p prev
  if alphaSame p prev then
    if smallDiff d then emitDiff (biased 2 2 d.dr) (biased 2 2 d.dg) (biased 2 2 d.db) s
    else if luma d then
      emitLuma (biased 6 32 d.dg) (biased 4 8 (d.dr - d.dg)) (biased 4 8 (d.db - d.dg)) s
    else emitRgb p.r p.g p.b s
  else emitRgba p.r p.g p.b p.a s

/-- EncodePixel(p) (42_pixel_selector.md R146). -/
def encodePixel (p : Pixel) (s : State) : State :=
  if hit p s then emitIndex (hashOf p) s else emitMiss p s.prev (store (hashOf p) p s)

/-- The run selector's own part: the pixel joins the run, which is flushed at 62 or at the last pixel
(42_pixel_selector.md R144). -/
def joinRun (last : Bool) (s : State) : State :=
  let s1 := { s with run := s.run + 1 }
  if s1.run = runMax ∨ last = true then flushRun s1 else s1

/-- A pixel that differs from PREV: the pending run first, then its own token (42_pixel_selector.md R145). -/
def endRun (p : Pixel) (s : State) : State :=
  encodePixel p (if s.run ≠ 0 then flushRun s else s)

/-- The body of PIXEL on the normalised pixel (42_pixel_selector.md R140). -/
def pixelStep (p : Pixel) (s : State) : State :=
  let s1 := { s with pixRemain := s.pixRemain - 1 }
  let last := decide (s1.pixRemain = 0)
  let s2 := if same p s1.prev then joinRun last s1 else endRun p s1
  let s3 := { s2 with prev := p }
  if last then finish s3 else s3

end Sys2Proof.Machine
end

