-- ==== Sys2Proof/Machine/ErrorReset.lean ====
section
/-! DEFINITION. SINKFAIL (60_exceptions.md R213) and RESET (70_reset_and_hazards.md R240). -/

namespace Sys2Proof.Machine

/-- SINKFAIL: `raise SinkFailure()` during an encode or while its output is pending; "In any other state it is
ignored: it is taken with no state change" (60_exceptions.md R213). -/
def execSinkfail (s : State) : Host.Outcome State Fault Refusal :=
  if sinkFailRaises s then .next (raise .sinkFailure s) else .next s

/-- The block's own elements as RESET leaves them (70_reset_and_hazards.md R240). It "does not consume commands
the host holds offered", what the sink has taken stays taken, and CACHE_INIT is a parameter. -/
def resetBlock (s : State) : State :=
  initCache
    { s with
      mode := .idle
      err := .none
      pixRemain := 0
      outCount := 0
      out := []
      sent := 0
      descW := 0
      descH := 0
      descCh := 0
      descCs := 0
      prev := initialPrev
      run := 0 }

/-- RESET: "can be taken in any state, and always succeeds" (70_reset_and_hazards.md R240). -/
def execReset (s : State) : Host.Outcome State Fault Refusal := .next (resetBlock s)

end Sys2Proof.Machine
end

