-- ==== Sys2Proof/Machine/PixelCommand.lean ====
section
/-! DEFINITION. PIXEL (42_pixel_selector.md). -/

namespace Sys2Proof.Machine

/-- PIXEL: normalise by DESC_CH and take the pixel (42_pixel_selector.md R140, R141); held outside ENCODING
(R142; log entry 2). -/
def execPixel (r g b a : Byte) (s : State) : Host.Outcome State Fault Refusal :=
  if pixReady s then .next (pixelStep (normalise s.descCh ⟨r, g, b, a⟩) s) else .next s

end Sys2Proof.Machine
end

