-- ==== Sys2Proof/Machine/StartHeader.lean ====
section
/-! DEFINITION. START and the header serializer (40_start_header.md). -/

namespace Sys2Proof.Machine

/-- HEADER: the header serializer on a given descriptor, its two checks included (40_start_header.md R101,
R102; log entry 5). -/
def execHeader (w h : BitVec 32) (ch : Byte) (cs : BitVec 1) (s : State) : Host.Outcome State Fault Refusal :=
  .next (serializeHeader w h ch cs s)

/-- START where it is enabled (40_start_header.md R100): a new stream, the checks, the latches, the encoder
state, the header, then ERR and MODE. -/
def startEncode (w h : BitVec 32) (ch : Byte) (cs : BitVec 1) (s : State) : State :=
  match descriptorError w h ch with
  | some e => raise e (newStream s)
  | none =>
    let s1 := initEncoderState w h (latchDescriptor w h ch cs (newStream s))
    let s2 := emitHeader s1.descW s1.descH s1.descCh s1.descCs s1
    { s2 with err := .none, mode := .encoding }

/-- START: held "with no step and no state change" unless enabled (40_start_header.md R104; log entry 2). -/
def execStart (w h : BitVec 32) (ch : Byte) (cs : BitVec 1) (s : State) : Host.Outcome State Fault Refusal :=
  if cfgReady s then .next (startEncode w h ch cs s) else .next s

end Sys2Proof.Machine
end

