-- ==== Sys2Proof/Machine/Termination.lean ====
section
/-! DEFINITION. The byte-packer: END_MARKER and DRAIN (44_byte_packer_termination.md). -/

namespace Sys2Proof.Machine

/-- END_MARKER: Finish() (44_byte_packer_termination.md R190). -/
def execEndMarker (s : State) : Host.Outcome State Fault Refusal := .next (finish s)

/-- The byte `OUT[SENT]` goes to the sink with `out_last`, and SENT advances (44_byte_packer_termination.md R191). -/
def transferByte (s : State) : State :=
  { s with sink := s.sink ++ [⟨outByte s, outLast s⟩], sent := s.sent + 1 }

/-- DRAIN: held while OUTQ is empty (44_byte_packer_termination.md R191; log entry 2). "It never changes OUT." -/
def execDrain (s : State) : Host.Outcome State Fault Refusal :=
  if outValid s then .next (transferByte s) else .next s

end Sys2Proof.Machine
end

