-- ==== Sys2Proof/Machine/Tokens.lean ====
section
/-! DEFINITION. The six token rows: the op-code serializer's operations on given payload fields
(43_opcode_serializer.md R164-R170; log entry 4). Each emits its bytes whatever the mode, as its pseudocode does. -/

namespace Sys2Proof.Machine

/-- OP_INDEX: `EmitIndex(h): Emit(0x00 | h)`; "The cache is not written" (43_opcode_serializer.md R166). -/
def execOpIndex (idx : BitVec 6) (s : State) : Host.Outcome State Fault Refusal := .next (emitIndex idx s)

/-- OP_DIFF (43_opcode_serializer.md R167). -/
def execOpDiff (r g b : BitVec 2) (s : State) : Host.Outcome State Fault Refusal := .next (emitDiff r g b s)

/-- OP_LUMA (43_opcode_serializer.md R168). -/
def execOpLuma (g : BitVec 6) (r b : BitVec 4) (s : State) : Host.Outcome State Fault Refusal :=
  .next (emitLuma g r b s)

/-- OP_RUN: FlushRun with its field given (43_opcode_serializer.md R164); 62 and 63 are "never run tokens"
(30_encoding.md R77; log entry 6). -/
def execOpRun (l : BitVec 6) (s : State) : Host.Outcome State Fault Refusal :=
  if runFieldOk l then .next (emitRun l s) else .refused .runFieldReserved

/-- OP_RGB (43_opcode_serializer.md R169). -/
def execOpRgb (r g b : Byte) (s : State) : Host.Outcome State Fault Refusal := .next (emitRgb r g b s)

/-- OP_RGBA (43_opcode_serializer.md R170). -/
def execOpRgba (r g b a : Byte) (s : State) : Host.Outcome State Fault Refusal := .next (emitRgba r g b a s)

end Sys2Proof.Machine
end

