-- ==== Sys2Proof/Machine/Dispatch.lean ====
section
/-! DEFINITION. One arm per constructor of Instr, each a direct call of that instruction's meaning. -/

namespace Sys2Proof.Machine

def exec (i : Instr) (s : State) : Host.Outcome State Fault Refusal :=
  match i with
  -- the op-code serializer
  | .opIndex idx => Sys2Proof.Machine.execOpIndex idx s
  | .opDiff r g b => Sys2Proof.Machine.execOpDiff r g b s
  | .opLuma g r b => Sys2Proof.Machine.execOpLuma g r b s
  | .opRun l => Sys2Proof.Machine.execOpRun l s
  | .opRgb r g b => Sys2Proof.Machine.execOpRgb r g b s
  | .opRgba r g b a => Sys2Proof.Machine.execOpRgba r g b a s
  -- the header serializer and the end of the stream
  | .header w h c cs => Sys2Proof.Machine.execHeader w h c cs s
  | .endMarker => Sys2Proof.Machine.execEndMarker s
  -- the five steps
  | .start w h ch cs => Sys2Proof.Machine.execStart w h ch cs s
  | .pixel r g b a => Sys2Proof.Machine.execPixel r g b a s
  | .drain => Sys2Proof.Machine.execDrain s
  | .sinkfail => Sys2Proof.Machine.execSinkfail s
  | .reset => Sys2Proof.Machine.execReset s

end Sys2Proof.Machine
end

