-- ==== Sys2Proof/Machine/Ports.lean ====
section
/-! DEFINITION. What reaches the block next, and what taking or holding it does to the host's side of the ports
(10_state.md R28; log entries 1-4). -/

namespace Sys2Proof.Machine

/-- What the next move carries: the bench's output unit if there is one, else the oldest offer of the channel
whose turn it is, else the signal whose turn it is. `none` when nothing is offered. -/
def nextBeat (s : State) : Option Beat :=
  match s.bench with
  | some bs => some (.outUnit bs)
  | none =>
    match s.turns with
    | [] => none
    | .cfg :: _ => s.cfgOffers.head?.map .cfg
    | .pix :: _ => s.pixOffers.head?.map .pix
    | .out :: _ => if s.outOffers = 0 then none else some .outReady
    | .sinkErr :: _ => some .sinkErr
    | .rst :: _ => some .rst

/-- The turn passes and nothing is taken: "It stays offered, and no state changes" (00_scope.md R9). -/
def passTurn (s : State) : State := { s with turns := s.turns.tail }

/-- The transfer is made: the beat leaves its channel and the turn passes. "A transfer is never lost or
duplicated." (10_state.md R28) -/
def takeBeat (b : Beat) (s : State) : State :=
  match b with
  | .cfg _ => { s with cfgOffers := s.cfgOffers.tail, turns := s.turns.tail }
  | .pix _ => { s with pixOffers := s.pixOffers.tail, turns := s.turns.tail }
  | .outReady => { s with outOffers := s.outOffers - 1, turns := s.turns.tail }
  | .sinkErr => { s with turns := s.turns.tail }
  | .rst => { s with turns := s.turns.tail }
  | .outUnit _ => { s with bench := none }

/-- The host's side as instruction `i`, offered as `b`, finds it: taken where `i` is enabled, else still
offered. -/
def accept (i : Instr) (b : Beat) (s : State) : State :=
  if enabled i s then takeBeat b s else passTurn s

/-- Offer a transfer as the very next one. -/
def placeBeat (b : Beat) (s : State) : State :=
  match b with
  | .cfg c => { s with bench := none, cfgOffers := c :: s.cfgOffers, turns := .cfg :: s.turns }
  | .pix p => { s with bench := none, pixOffers := p :: s.pixOffers, turns := .pix :: s.turns }
  | .outReady => { s with bench := none, outOffers := s.outOffers + 1, turns := .out :: s.turns }
  | .sinkErr => { s with bench := none, turns := .sinkErr :: s.turns }
  | .rst => { s with bench := none, turns := .rst :: s.turns }
  | .outUnit bs => { s with bench := some bs }

end Sys2Proof.Machine
end

