-- ==== Sys2Proof/Machine/Step.lean ====
section
/-! DEFINITION. One step: take what reaches the block next, decode it, run it (10_state.md R20, R28). -/

namespace Sys2Proof.Machine

/-- One step of one instance. Where nothing is offered the block waits: only the turn passes. Where a command is
offered it runs on the state its transfer leaves; a command that is not enabled stays offered and changes
nothing (00_scope.md R9). -/
def step (s : State) : Host.Outcome State Fault Refusal :=
  match nextBeat s with
  | none => .next (passTurn s)
  | some b =>
    match decode b with
    | .error e => .refused (.undecodable e)
    | .ok i => exec i (accept i b s)

/-- `s` with the instruction of an opcode-table row offered as the very next transfer (log entries 9, 10). -/
def State.withFetchWord (s : State) (nbits w : Nat) : State := placeBeat (tableBeat nbits w) s

end Sys2Proof.Machine
end

