-- ==== Sys2Proof/Safety.lean ====
section
/-! DEFINITION. The terms claims are stated in: the invariants of 10_state.md R42, the ends of an encode
(44_byte_packer_termination.md R196), runs of commands, and the test decoder of R197. -/

namespace Sys2Proof.Machine

/-! ## Invariants -/

/-- The transfers of the current encode, as the sink must hold them: the bytes `OUT[0 .. SENT)`, in that order
(44_byte_packer_termination.md R193), with `out_last` on the final byte of a finished stream and on no other
(R192). -/
def delivered (s : State) : List Transfer :=
  (List.range s.sent).map fun k =>
    { byte := s.out.getD k 0, last := decide (s.mode = .done) && decide (k + 1 = s.out.length) }

/-- What CacheInit leaves in a slot: the pixel (0,0,0,0) under ZERO, and `empty`, that is V = 0, under EMPTY
(41_color_cache.md R122, R125). Said by the rule's own values, not by the cache's definition. -/
abbrev InitialSlot (ci : CacheInit) (slot : Option Pixel) : Prop :=
  (ci = .zero ∧ slot = some ⟨0, 0, 0, 0⟩) ∨ (ci = .empty ∧ slot = none)

/-- The invariants of 10_state.md R42, numbered as there, and what the model adds to make them inductive. -/
structure Inv (s : State) : Prop where
  /-- R42.1: ERR ≠ NONE exactly when MODE = ERROR. -/
  err_iff_error : s.err ≠ .none ↔ s.mode = .error
  /-- R42.2: MODE ≠ ENCODING implies RUN = 0. -/
  run_zero_outside : s.mode ≠ .encoding → s.run = 0
  /-- R42.3: between steps, RUN ≤ 61. -/
  run_bound : s.run.toNat ≤ 61
  /-- R42.4: PIX_REMAIN > 0 exactly when MODE = ENCODING. -/
  remain_iff_encoding : s.pixRemain ≠ 0 ↔ s.mode = .encoding
  /-- R42.5: SENT ≤ |OUT|. -/
  sent_bound : s.sent ≤ s.out.length
  /-- R42.6: OUT_COUNT = |OUT| mod 2^64. -/
  out_count_agrees : s.outCount = BitVec.ofNat 64 s.out.length
  /-- R42.7: every slot is at its START value or holds a pixel that hashes to it. -/
  slots_hashed : ∀ h : BitVec 6,
    InitialSlot s.cacheInit (probe h s) ∨ ∃ q, probe h s = some q ∧ hashOf q = h
  /-- The cache's list is canonical (log entry 8). -/
  cache_canonical : Memory.wf s.cacheInit s.cache = true
  /-- While an encode runs, DESC_CH is 3 or 4 (10_state.md R32, 40_start_header.md R100). -/
  channels_legal : s.mode = .encoding → s.descCh = 3 ∨ s.descCh = 4
  /-- In a 3-channel encode PREV is opaque: START leaves 255 there, Normalise every later alpha
  (42_pixel_selector.md R141). -/
  alpha_opaque : s.mode = .encoding → s.descCh = 3 → s.prev.a = 255
  /-- DONE means the end marker stands at the end of OUT (10_state.md R29). -/
  done_ends : s.mode = .done → ∃ body, s.out = body ++ endMarkerBytes
  /-- "In ERROR, OUTQ is empty" (44_byte_packer_termination.md R191). -/
  error_queue_empty : s.mode = .error → s.sent = s.out.length
  /-- R192, R193: the sink's newest transfers are the current encode's. -/
  sink_agrees : ∃ earlier, s.sink = earlier ++ delivered s
  /-- No output unit waits on the bench: what runs are the host's commands (log entry 4). -/
  bench_empty : s.bench = none

/-- "Success. MODE = DONE and OUTQ is empty." (44_byte_packer_termination.md R196) -/
def Succeeded (s : State) : Prop := s.mode = .done ∧ outQueue s = []

/-- "Failure. MODE = ERROR." (44_byte_packer_termination.md R196) -/
def Failed (s : State) : Prop := s.mode = .error

/-! ## What a PIXEL step leaves, in the spec's terms -/

/-- The byte of the pending run's flush, if a run is pending (43_opcode_serializer.md R164). -/
def pendingRunBytes (s : State) : List Byte :=
  if s.run = 0 then [] else [BitVec.ofNat 8 (0xC0 + (s.run.toNat - 1))]

/-- The end marker if the next pixel is the last one (42_pixel_selector.md R148, R149). -/
def lastPixelBytes (s : State) : List Byte :=
  if s.pixRemain = 1 then [0x00, 0x00, 0x00, 0x00, 0x00, 0x00, 0x00, 0x01] else []

/-- What a PIXEL step that emits `bytes` leaves, with RUN and CACHE as given: PIX_REMAIN one less, PREV the
pixel, MODE = DONE after the last pixel, nothing else changed (42_pixel_selector.md R140). -/
def afterPixel (p : Pixel) (bytes : List Byte) (run : BitVec 6) (cache : Memory) (s : State) : State :=
  { s with
    pixRemain := s.pixRemain - 1
    prev := p
    run := run
    cache := cache
    out := s.out ++ bytes
    outCount := s.outCount + BitVec.ofNat 64 bytes.length
    mode := if s.pixRemain = 1 then .done else s.mode }

/-- The cache `m` is that of `s` with `p` stored at hash(p): "every other slot unchanged"
(41_color_cache.md R123). -/
def StoredIn (p : Pixel) (s : State) (m : Memory) : Prop :=
  Memory.read s.cacheInit m (hashOf p).toNat = some p ∧
    ∀ h : BitVec 6, h ≠ hashOf p → Memory.read s.cacheInit m h.toNat = probe h s

/-- Every slot of `m` is as CacheInit leaves it (41_color_cache.md R125). -/
def AllInitial (ci : CacheInit) (m : Memory) : Prop :=
  ∀ h : BitVec 6, InitialSlot ci (Memory.read ci m h.toNat)

/-- Two blocks in the same place of an encode, `z` built with CACHE_INIT = ZERO and `e` with EMPTY (41_color_cache.md
R128): what a PIXEL reads besides CACHE is equal, and each slot reads the same or is unwritten in both. Nothing is said of
OUT, OUT_COUNT, SENT and the sink. -/
structure EncodersAgree (z e : State) : Prop where
  zero_built : z.cacheInit = .zero
  empty_built : e.cacheInit = .empty
  zero_canonical : Memory.wf .zero z.cache = true
  empty_canonical : Memory.wf .empty e.cache = true
  mode_eq : z.mode = e.mode
  err_eq : z.err = e.err
  channels_eq : z.descCh = e.descCh
  remain_eq : z.pixRemain = e.pixRemain
  prev_eq : z.prev = e.prev
  run_eq : z.run = e.run
  slots_agree : ∀ h : BitVec 6,
    probe h z = probe h e ∨ (InitialSlot .zero (probe h z) ∧ InitialSlot .empty (probe h e))

/-- RUN after an output unit: OP_RUN clears it (43_opcode_serializer.md R164). -/
def runAfterUnit (i : Instr) (s : State) : BitVec 6 :=
  match i with
  | .opRun _ => 0
  | .opIndex _ => s.run
  | .opDiff _ _ _ => s.run
  | .opLuma _ _ _ => s.run
  | .opRgb _ _ _ => s.run
  | .opRgba _ _ _ _ => s.run
  | .header _ _ _ _ => s.run
  | .endMarker => s.run
  | .start _ _ _ _ => s.run
  | .pixel _ _ _ _ => s.run
  | .drain => s.run
  | .sinkfail => s.run
  | .reset => s.run

/-- MODE after an output unit: END_MARKER ends the stream (44_byte_packer_termination.md R190). -/
def modeAfterUnit (i : Instr) (s : State) : Mode :=
  match i with
  | .endMarker => .done
  | .opIndex _ => s.mode
  | .opDiff _ _ _ => s.mode
  | .opLuma _ _ _ => s.mode
  | .opRun _ => s.mode
  | .opRgb _ _ _ => s.mode
  | .opRgba _ _ _ _ => s.mode
  | .header _ _ _ _ => s.mode
  | .start _ _ _ _ => s.mode
  | .pixel _ _ _ _ => s.mode
  | .drain => s.mode
  | .sinkfail => s.mode
  | .reset => s.mode

/-- What error entry leaves (60_exceptions.md R215), for a state with SENT ≤ |OUT|. -/
def afterError (e : Err) (s : State) : State :=
  { s with
    err := e
    mode := .error
    run := 0
    pixRemain := 0
    out := s.out.take s.sent
    outCount := BitVec.ofNat 64 s.sent }

/-! ## Runs of commands -/

/-- The commands of a list, one after the other. -/
def runAll : List Instr → State → Host.Outcome State Fault Refusal
  | [], s => .next s
  | i :: is, s =>
    match exec i s with
    | .next t => runAll is t
    | .fault f => .fault f
    | .refused r => .refused r

/-- Whether a command is PIXEL or DRAIN: what a host gives between two STARTs. -/
def isPixelOrDrain : Instr → Bool
  | .opIndex _ => false
  | .opDiff _ _ _ => false
  | .opLuma _ _ _ => false
  | .opRun _ => false
  | .opRgb _ _ _ => false
  | .opRgba _ _ _ _ => false
  | .header _ _ _ _ => false
  | .endMarker => false
  | .start _ _ _ _ => false
  | .pixel _ _ _ _ => true
  | .drain => true
  | .sinkfail => false
  | .reset => false

/-- The pixel a command offers. -/
def offeredPixel : Instr → Option Pixel
  | .pixel r g b a => some ⟨r, g, b, a⟩
  | .opIndex _ => none
  | .opDiff _ _ _ => none
  | .opLuma _ _ _ => none
  | .opRun _ => none
  | .opRgb _ _ _ => none
  | .opRgba _ _ _ _ => none
  | .header _ _ _ _ => none
  | .endMarker => none
  | .start _ _ _ _ => none
  | .drain => none
  | .sinkfail => none
  | .reset => none

/-- The pixels a list of commands offers, in order. -/
def pixelsOf (cmds : List Instr) : List Pixel := cmds.filterMap offeredPixel

/-- How many pixels an output unit stands for: a run its length, any other token one (42_pixel_selector.md R152),
and what is no token none. -/
def tokenPixels : Instr → Nat
  | .opRun l => l.toNat + 1
  | .opIndex _ => 1
  | .opDiff _ _ _ => 1
  | .opLuma _ _ _ => 1
  | .opRgb _ _ _ => 1
  | .opRgba _ _ _ _ => 1
  | .header _ _ _ _ => 0
  | .endMarker => 0
  | .start _ _ _ _ => 0
  | .pixel _ _ _ _ => 0
  | .drain => 0
  | .sinkfail => 0
  | .reset => 0

/-- A valid descriptor (60_exceptions.md R211, R212). -/
def ValidDescriptor (w h : BitVec 32) (ch : Byte) : Prop := w ≠ 0 ∧ h ≠ 0 ∧ (ch = 3 ∨ ch = 4)

/-- A whole image's commands: a valid START, then PIXELs and DRAINs in any order with exactly `width × height`
PIXELs among them (70_reset_and_hazards.md R243). -/
structure WholeEncode (w h : BitVec 32) (ch : Byte) (cmds : List Instr) : Prop where
  valid : ValidDescriptor w h ch
  commands : ∀ i ∈ cmds, isPixelOrDrain i = true
  count : (pixelsOf cmds).length = w.toNat * h.toNat

/-! ## The test decoder (44_byte_packer_termination.md R197): "for tests only ... not part of the block" -/

/-- The pixel a token other than a run stands for, given the decoder's previous pixel and cache; none where an
OP_INDEX names an invalid slot, and none for what is no such token. -/
def tokenPixel (ci : CacheInit) (prev : Pixel) (m : Memory) : Instr → Option Pixel
  | .opIndex idx => Memory.read ci m idx.toNat
  | .opDiff r g b =>
    some ⟨wrap8 (prev.r.toNat + r.toNat - 2), wrap8 (prev.g.toNat + g.toNat - 2),
      wrap8 (prev.b.toNat + b.toNat - 2), prev.a⟩
  | .opLuma g r b =>
    let dg : Int := (g.toNat : Int) - 32
    some ⟨wrap8 (prev.r.toNat + dg + r.toNat - 8), wrap8 (prev.g.toNat + dg),
      wrap8 (prev.b.toNat + dg + b.toNat - 8), prev.a⟩
  | .opRgb r g b => some ⟨r, g, b, prev.a⟩
  | .opRgba r g b a => some ⟨r, g, b, a⟩
  | .opRun _ => none
  | .header _ _ _ _ => none
  | .endMarker => none
  | .start _ _ _ _ => none
  | .pixel _ _ _ _ => none
  | .drain => none
  | .sinkfail => none
  | .reset => none

/-- The decoder's loop "while |px| < w*h", with fuel for the number of tokens; the pixels and the bytes left. -/
def decodeBody (ci : CacheInit) (n : Nat) :
    Nat → Pixel → Memory → List Pixel → List Byte → Option (List Pixel × List Byte)
  | fuel, prev, m, px, bs =>
    if n ≤ px.length then some (px, bs)
    else
      match fuel with
      | 0 => none
      | fuel + 1 =>
        match decodeToken bs with
        | .error _ => none
        | .ok (.opRun l, rest) =>
          decodeBody ci n fuel prev m (px ++ List.replicate (l.toNat + 1) prev) rest
        | .ok (i, rest) =>
          match tokenPixel ci prev m i with
          | none => none
          | some p => decodeBody ci n fuel p (Memory.write ci (hashOf p).toNat p m) (px ++ [p]) rest

/-- What the test decoder reads from a stream. -/
structure Decoded where
  width : BitVec 32
  height : BitVec 32
  channels : Byte
  colorspace : BitVec 1
  pixels : List Pixel
  deriving DecidableEq, Repr

/-- Decode(OUT, CACHE_INIT): header, body, and the end marker as all that is left. -/
def decodeStream (ci : CacheInit) (bs : List Byte) : Option Decoded :=
  match decodeHeader (bs.take 14) with
  | .ok (.header w h c cs) =>
    match decodeBody ci (w.toNat * h.toNat) bs.length initialPrev [] [] (bs.drop 14) with
    | some (px, rest) => if rest = endMarkerBytes then some ⟨w, h, c, cs, px⟩ else none
    | none => none
  | .ok _ => none
  | .error _ => none

end Sys2Proof.Machine
end

