-- ==== Sys2Proof/Certificates/Slice0/Obligations.lean ====
section
/-! DEFINITION. The statements about the model, for the provers. Each docstring names the rule of spec/ that the
statement formalises, or says that it rests on a choice of the model. -/

open Sys2Proof Sys2Proof.Machine

/-! ## Encodings -/

/-- Every well-formed instruction is read back from its encoding (30_encoding.md R71, R73, R74, R79, R80; the
carriers of DRAIN, SINKFAIL and RESET are the model's names for their signals). -/
def Obligations.DecodeEncodeRoundTrip : Prop :=
  ∀ i : Instr, i.wellFormed = true → decode (encode i) = .ok i

/-- Every transfer the decoder accepts has exactly one reading: encoding what was read gives the transfer back. -/
def Obligations.DecodedBeatReencodes : Prop :=
  ∀ (b : Beat) (i : Instr), decode b = .ok i → encode i = b

/-- Words written out bit by bit from 30_encoding.md R71, R73, R74, R79 and R80. -/
def Obligations.SpecWordsDecode : Prop :=
  decode (.outUnit [0b00001001]) = .ok (.opIndex 9) ∧
  decode (.outUnit [0b01110101]) = .ok (.opDiff 0b11 0b01 0b01) ∧
  decode (.outUnit [0b10101010, 0b00111101]) = .ok (.opLuma 42 3 13) ∧
  decode (.outUnit [0b11000001]) = .ok (.opRun 1) ∧
  decode (.outUnit [0xFE, 0x0A, 0x14, 0x1E]) = .ok (.opRgb 10 20 30) ∧
  decode (.outUnit [0xFF, 0x01, 0x02, 0x03, 0x04]) = .ok (.opRgba 1 2 3 4) ∧
  decode (.outUnit [0x71, 0x6F, 0x69, 0x66, 1, 2, 3, 4, 0x0A, 0x0B, 0x0C, 0x0D, 3, 1]) =
    .ok (.header 0x01020304 0x0A0B0C0D 3 1) ∧
  decode (.outUnit [0, 0, 0, 0, 0, 0, 0, 1]) = .ok .endMarker ∧
  decode (.cfg 0x0000000100000000208) = .ok (.start 8 1 4 0) ∧
  decode (.pix 0x141E2880) = .ok (.pixel 20 30 40 128)

/-- "The first byte of a token tells a reader the token's length and kind. The two 8-bit tags are tested first"
(30_encoding.md R76), with the fields where R74 puts them. -/
def Obligations.FirstByteTellsToken : Prop :=
  ∀ (b0 : Byte) (tl : List Byte),
    (b0 = 0xFE → ∀ r g b, decodeToken (b0 :: r :: g :: b :: tl) = .ok (.opRgb r g b, tl)) ∧
    (b0 = 0xFF → ∀ r g b a, decodeToken (b0 :: r :: g :: b :: a :: tl) = .ok (.opRgba r g b a, tl)) ∧
    (b0.toNat < 0x40 → decodeToken (b0 :: tl) = .ok (.opIndex (BitVec.ofNat 6 b0.toNat), tl)) ∧
    (0x40 ≤ b0.toNat → b0.toNat < 0x80 →
      decodeToken (b0 :: tl) =
        .ok (.opDiff (BitVec.ofNat 2 (b0.toNat / 16)) (BitVec.ofNat 2 (b0.toNat / 4)) (BitVec.ofNat 2 b0.toNat), tl)) ∧
    (0x80 ≤ b0.toNat → b0.toNat < 0xC0 → ∀ b1 : Byte,
      decodeToken (b0 :: b1 :: tl) =
        .ok (.opLuma (BitVec.ofNat 6 b0.toNat) (BitVec.ofNat 4 (b1.toNat / 16)) (BitVec.ofNat 4 b1.toNat), tl)) ∧
    (0xC0 ≤ b0.toNat → b0.toNat ≤ 0xFD → decodeToken (b0 :: tl) = .ok (.opRun (BitVec.ofNat 6 b0.toNat), tl))

/-- "Every 73-bit value is a START command" with its fields at [72:41], [40:9], [8:1] and [0] (30_encoding.md
R79), and "Every 32-bit value is a valid PIXEL" with r, g, b, a from the top byte down (R80). -/
def Obligations.BeatLayouts : Prop :=
  (∀ b : CfgBeat, decode (.cfg b) =
    .ok (.start (BitVec.ofNat 32 (b.toNat / 2 ^ 41)) (BitVec.ofNat 32 (b.toNat / 2 ^ 9))
      (BitVec.ofNat 8 (b.toNat / 2)) (BitVec.ofNat 1 b.toNat))) ∧
  (∀ b : PixBeat, decode (.pix b) =
    .ok (.pixel (BitVec.ofNat 8 (b.toNat / 2 ^ 24)) (BitVec.ofNat 8 (b.toNat / 2 ^ 16))
      (BitVec.ofNat 8 (b.toNat / 2 ^ 8)) (BitVec.ofNat 8 b.toNat)))

/-- An OP_RUN term whose field is 62 or 63 stops by name, and no transfer decodes to one: those bytes "are never
run tokens" (30_encoding.md R77). That it stops is the model's choice (log entry 6). -/
def Obligations.ReservedRunFieldStops : Prop :=
  (∀ (l : BitVec 6) (s : State), 62 ≤ l.toNat → exec (.opRun l) s = .refused .runFieldReserved) ∧
  (∀ (b : Beat) (l : BitVec 6), decode b = .ok (.opRun l) → l.toNat ≤ 61)

/-! ## The serializers -/

/-- Every well-formed output unit runs in every state and appends exactly the bytes of its encoding (30_encoding.md
R71, R73, R74) to OUT; OP_RUN also clears RUN, END_MARKER also sets MODE, and nothing else changes. That the
units run on their own is the model's (log entry 4). -/
def Obligations.UnitsEmitTheirEncoding : Prop :=
  ∀ i : Instr, i.wellFormed = true → i.isCommand = false → ∀ s : State,
    exec i s = .next
      { s with
        out := s.out ++ unitBytes i
        outCount := s.outCount + BitVec.ofNat 64 (unitBytes i).length
        run := runAfterUnit i s
        mode := modeAfterUnit i s }

/-- `EmitIndex(h): Emit(0x00 | h)`; the cache is not written (43_opcode_serializer.md R166).
That the row runs on its own in every state is
the model's choice (log entry 4). -/
def Obligations.OpIndexEmitsHash : Prop :=
  ∀ (idx : BitVec 6) (s : State),
    exec (.opIndex idx) s = .next
      { s with out := s.out ++ [BitVec.ofNat 8 idx.toNat], outCount := s.outCount + 1 }

/-- `EmitDiff(dr, dg, db): Emit(0x40 | ((dr + 2) << 4) | ((dg + 2) << 2) | (db + 2))`, each delta in [-2, 1]
(43_opcode_serializer.md R167). That the row runs on its own in every state is
the model's choice (log entry 4). -/
def Obligations.OpDiffEmitsBiasedDeltas : Prop :=
  ∀ (dr dg db : Int) (s : State), -2 ≤ dr → dr ≤ 1 → -2 ≤ dg → dg ≤ 1 → -2 ≤ db → db ≤ 1 →
    exec (.opDiff (BitVec.ofInt 2 (dr + 2)) (BitVec.ofInt 2 (dg + 2)) (BitVec.ofInt 2 (db + 2))) s = .next
      { s with
        out := s.out ++ [BitVec.ofInt 8 (0x40 + (dr + 2) * 16 + (dg + 2) * 4 + (db + 2))]
        outCount := s.outCount + 1 }

/-- EmitLuma: `Emit(0x80 | (dg + 32))`, then `Emit(((dr - dg + 8) << 4) | (db - dg + 8))`
(43_opcode_serializer.md R168). That the row runs on its own in every state is
the model's choice (log entry 4). -/
def Obligations.OpLumaEmitsBiasedDeltas : Prop :=
  ∀ (dr dg db : Int) (s : State), -32 ≤ dg → dg ≤ 31 → -8 ≤ dr - dg → dr - dg ≤ 7 → -8 ≤ db - dg → db - dg ≤ 7 →
    exec (.opLuma (BitVec.ofInt 6 (dg + 32)) (BitVec.ofInt 4 (dr - dg + 8)) (BitVec.ofInt 4 (db - dg + 8))) s =
      .next
        { s with
          out := s.out ++ [BitVec.ofInt 8 (0x80 + (dg + 32)), BitVec.ofInt 8 ((dr - dg + 8) * 16 + (db - dg + 8))]
          outCount := s.outCount + 2 }

/-- The OP_RUN row on a given field n - 1, 1 ≤ n ≤ 62, emits `0xC0 | (n - 1)` and clears RUN; that it runs on its own in
every state is the model's choice (log entry 4). On the pending run, n = RUN, that row is FlushRun(): `Emit(0xC0 | (RUN - 1));
RUN <- 0` (43_opcode_serializer.md R164). "Every OP_RUN byte the block emits lies in [0xC0, 0xFD]" (R171). -/
def Obligations.OpRunEmitsAndClearsRun : Prop :=
  ∀ (n : Nat) (s : State), 1 ≤ n → n ≤ 62 →
    exec (.opRun (BitVec.ofNat 6 (n - 1))) s = .next
      { s with
        out := s.out ++ [BitVec.ofNat 8 (0xC0 + (n - 1))]
        outCount := s.outCount + 1
        run := 0 } ∧
    (s.run.toNat = n →
      exec (.opRun (s.run - 1)) s = .next (flushRun s) ∧
      flushRun s =
        { s with
          out := s.out ++ [BitVec.ofNat 8 (0xC0 + (s.run.toNat - 1))]
          outCount := s.outCount + 1
          run := 0 }) ∧
    0xC0 ≤ (BitVec.ofNat 8 (0xC0 + (n - 1))).toNat ∧ (BitVec.ofNat 8 (0xC0 + (n - 1))).toNat ≤ 0xFD

/-- `EmitRGB(p): Emit(0xFE, p.r, p.g, p.b)` (43_opcode_serializer.md R169) and
`EmitRGBA(p): Emit(0xFF, p.r, p.g, p.b, p.a)` (R170). That the rows run on their own in every state is the model's choice
(log entry 4). -/
def Obligations.RawTokensEmitChannels : Prop :=
  ∀ (p : Pixel) (s : State),
    exec (.opRgb p.r p.g p.b) s = .next
      { s with out := s.out ++ [0xFE, p.r, p.g, p.b], outCount := s.outCount + 4 } ∧
    exec (.opRgba p.r p.g p.b p.a) s = .next
      { s with out := s.out ++ [0xFF, p.r, p.g, p.b, p.a], outCount := s.outCount + 5 }

/-- The header serializer on a valid descriptor emits the 14 bytes, width and height big-endian
(40_start_header.md R102); on a bad one it fails with the error R101 quotes, dimensions first, and emits nothing.
That HEADER runs as a row of its own in every state, appending to any OUT, is the model's choice (log entry 4), and that it
makes the checks there the model's reading (log entry 5). -/
def Obligations.HeaderSerializesDescriptor : Prop :=
  ∀ (w h : BitVec 32) (ch : Byte) (cs : BitVec 1) (s : State),
    (ValidDescriptor w h ch →
      exec (.header w h ch cs) s = .next
        { s with
          out := s.out ++
            [0x71, 0x6F, 0x69, 0x66,
             BitVec.ofNat 8 (w.toNat / 2 ^ 24), BitVec.ofNat 8 (w.toNat / 2 ^ 16), BitVec.ofNat 8 (w.toNat / 2 ^ 8),
             BitVec.ofNat 8 w.toNat,
             BitVec.ofNat 8 (h.toNat / 2 ^ 24), BitVec.ofNat 8 (h.toNat / 2 ^ 16), BitVec.ofNat 8 (h.toNat / 2 ^ 8),
             BitVec.ofNat 8 h.toNat,
             ch, BitVec.ofNat 8 cs.toNat]
          outCount := s.outCount + 14 }) ∧
    (s.sent ≤ s.out.length → (w = 0 ∨ h = 0) →
      exec (.header w h ch cs) s = .next (afterError .invalidDimensions s)) ∧
    (s.sent ≤ s.out.length → w ≠ 0 → h ≠ 0 → ch ≠ 3 → ch ≠ 4 →
      exec (.header w h ch cs) s = .next (afterError .unsupportedChannelCount s))

/-- Finish(): the 8 bytes of the end marker, then MODE = DONE; ERR and all else unchanged
(44_byte_packer_termination.md R190). That the row runs on its own in every state, also where the rule never calls
Finish, is the model's choice (log entry 4). -/
def Obligations.EndMarkerFinishesStream : Prop :=
  ∀ s : State,
    exec .endMarker s = .next
      { s with
        out := s.out ++ [0x00, 0x00, 0x00, 0x00, 0x00, 0x00, 0x00, 0x01]
        outCount := s.outCount + 8
        mode := .done }

/-! ## START -/

/-- A START that is enabled and valid: a new stream that holds the 14 header bytes, the latches, PREV = (0,0,0,255),
RUN = 0, every cache slot (0,0,0,0) under ZERO and empty under EMPTY, PIX_REMAIN the exact product, ERR = NONE, MODE = ENCODING (40_start_header.md
R100, R102, R103; 41_color_cache.md R125). -/
def Obligations.StartBeginsEncode : Prop :=
  ∀ (w h : BitVec 32) (ch : Byte) (cs : BitVec 1) (s : State),
    s.mode ≠ .encoding → s.sent = s.out.length → ValidDescriptor w h ch →
    ∃ m : Memory, AllInitial s.cacheInit m ∧
      exec (.start w h ch cs) s = .next
        { s with
          mode := .encoding
          err := .none
          descW := w
          descH := h
          descCh := ch
          descCs := cs
          pixRemain := BitVec.ofNat 64 (w.toNat * h.toNat)
          outCount := 14
          prev := ⟨0, 0, 0, 255⟩
          run := 0
          cache := m
          out :=
            [0x71, 0x6F, 0x69, 0x66,
             BitVec.ofNat 8 (w.toNat / 2 ^ 24), BitVec.ofNat 8 (w.toNat / 2 ^ 16), BitVec.ofNat 8 (w.toNat / 2 ^ 8),
             BitVec.ofNat 8 w.toNat,
             BitVec.ofNat 8 (h.toNat / 2 ^ 24), BitVec.ofNat 8 (h.toNat / 2 ^ 16), BitVec.ofNat 8 (h.toNat / 2 ^ 8),
             BitVec.ofNat 8 h.toNat,
             ch, BitVec.ofNat 8 cs.toNat]
          sent := 0 }

/-- "InvalidDimensions is raised by START when `cfg_width = 0` or `cfg_height = 0`, before any byte of the new
stream is emitted and before any other check": STATUS = 0x7, OUT empty, latches, PREV and CACHE kept
(60_exceptions.md R211, R215; 40_start_header.md R100). That SENT and OUT_COUNT are 0 and RUN is cleared is read from R100 and
R215 together (log entry 19). -/
def Obligations.StartInvalidDimensions : Prop :=
  ∀ (w h : BitVec 32) (ch : Byte) (cs : BitVec 1) (s : State),
    s.mode ≠ .encoding → s.sent = s.out.length → (w = 0 ∨ h = 0) →
    ∃ t : State, exec (.start w h ch cs) s = .next t ∧ status t = 0x7 ∧
      t = { s with
            mode := .error
            err := .invalidDimensions
            out := []
            sent := 0
            outCount := 0
            run := 0
            pixRemain := 0 }

/-- "UnsupportedChannelCount is raised by START when `cfg_channels` is neither 3 nor 4 and both dimensions are
non-zero": STATUS = 0xB, OUT empty (60_exceptions.md R212, R215; 40_start_header.md R100). That SENT and OUT_COUNT are 0
and RUN is cleared is read from R100 and R215 together (log entry 19). -/
def Obligations.StartUnsupportedChannels : Prop :=
  ∀ (w h : BitVec 32) (ch : Byte) (cs : BitVec 1) (s : State),
    s.mode ≠ .encoding → s.sent = s.out.length → w ≠ 0 → h ≠ 0 → ch ≠ 3 → ch ≠ 4 →
    ∃ t : State, exec (.start w h ch cs) s = .next t ∧ status t = 0xB ∧
      t = { s with
            mode := .error
            err := .unsupportedChannelCount
            out := []
            sent := 0
            outCount := 0
            run := 0
            pixRemain := 0 }

/-- "START is held, with no step and no state change, while MODE = ENCODING or while OUTQ is not empty": only the
turn passes, and the beat stays offered; once neither holds it is taken (40_start_header.md R104). That a held START is a
step in which the turn passes is the model's choice (log entries 1, 2). -/
def Obligations.StartHeldStaysOffered : Prop :=
  ∀ (s : State) (b : CfgBeat) (bs : List CfgBeat) (ts : List Turn),
    s.bench = none → s.turns = .cfg :: ts → s.cfgOffers = b :: bs →
    ((s.mode = .encoding ∨ outQueue s ≠ []) → step s = .next { s with turns := ts }) ∧
    (s.mode ≠ .encoding → outQueue s = [] → s.sent ≤ s.out.length →
      step s = exec (decodeStart b) { s with cfgOffers := bs, turns := ts } ∧
      cfgReady { s with cfgOffers := bs, turns := ts } = true)

/-- "Nothing carries over from the previous encode": a valid START taken in any two states that agree on the host's
side gives one and the same state (40_start_header.md R107). -/
def Obligations.StartForgetsPreviousEncode : Prop :=
  ∀ (w h : BitVec 32) (ch : Byte) (cs : BitVec 1) (s1 s2 : State),
    ValidDescriptor w h ch →
    s1.mode ≠ .encoding → s1.sent = s1.out.length → s2.mode ≠ .encoding → s2.sent = s2.out.length →
    s1.cacheInit = s2.cacheInit → s1.cfgOffers = s2.cfgOffers → s1.pixOffers = s2.pixOffers →
    s1.outOffers = s2.outOffers → s1.turns = s2.turns → s1.sink = s2.sink → s1.bench = s2.bench →
    ∃ t : State, exec (.start w h ch cs) s1 = .next t ∧ exec (.start w h ch cs) s2 = .next t

/-! ## PIXEL -/

/-- The run selector: a pixel equal to PREV joins the run with no byte and no cache write, unless RUN has reached 62
or the pixel is the last one, when the run is flushed in the same step (42_pixel_selector.md R143, R144). -/
def Obligations.PixelJoinsRun : Prop :=
  ∀ (r g b a : Byte) (s : State),
    s.mode = .encoding → s.run.toNat ≤ 61 → normalise s.descCh ⟨r, g, b, a⟩ = s.prev →
    (s.run.toNat + 1 < 62 → s.pixRemain ≠ 1 →
      exec (.pixel r g b a) s = .next (afterPixel s.prev [] (s.run + 1) s.cache s)) ∧
    ((s.run.toNat + 1 = 62 ∨ s.pixRemain = 1) →
      exec (.pixel r g b a) s = .next
        (afterPixel s.prev (BitVec.ofNat 8 (0xC0 + s.run.toNat) :: lastPixelBytes s) 0 s.cache s))

/-- A pixel that differs from PREV and hits: the pending run's byte, OP_INDEX with the hash, the end marker if it is
the last pixel; the cache is not written, and the alpha does not matter (42_pixel_selector.md R145, R146;
43_opcode_serializer.md R166). -/
def Obligations.PixelHitEmitsIndex : Prop :=
  ∀ (r g b a : Byte) (p : Pixel) (s : State),
    s.mode = .encoding → s.run.toNat ≤ 61 → p = normalise s.descCh ⟨r, g, b, a⟩ → p ≠ s.prev →
    probe (hashOf p) s = some p →
    exec (.pixel r g b a) s = .next
      (afterPixel p (pendingRunBytes s ++ [BitVec.ofNat 8 (hashOf p).toNat] ++ lastPixelBytes s) 0 s.cache s)

/-- A miss with the alpha unchanged and all three deltas in [-2, 1]: the pixel is stored and OP_DIFF emitted
(42_pixel_selector.md R146; 43_opcode_serializer.md R162, R165, R167). -/
def Obligations.PixelMissEmitsDiff : Prop :=
  ∀ (r g b a : Byte) (p : Pixel) (s : State),
    s.mode = .encoding → s.run.toNat ≤ 61 → Memory.wf s.cacheInit s.cache = true →
    p = normalise s.descCh ⟨r, g, b, a⟩ → p ≠ s.prev → probe (hashOf p) s ≠ some p → p.a = s.prev.a →
    (-2 ≤ delta p.r s.prev.r ∧ delta p.r s.prev.r ≤ 1) → (-2 ≤ delta p.g s.prev.g ∧ delta p.g s.prev.g ≤ 1) →
    (-2 ≤ delta p.b s.prev.b ∧ delta p.b s.prev.b ≤ 1) →
    ∃ m : Memory, StoredIn p s m ∧
      exec (.pixel r g b a) s = .next
        (afterPixel p
          (pendingRunBytes s ++
            [BitVec.ofInt 8 (0x40 + (delta p.r s.prev.r + 2) * 16 + (delta p.g s.prev.g + 2) * 4
              + (delta p.b s.prev.b + 2))] ++ lastPixelBytes s) 0 m s)

/-- A miss with the alpha unchanged, SmallDiff false and the luma ranges met: the pixel is stored and OP_LUMA emitted
(42_pixel_selector.md R146; 43_opcode_serializer.md R163, R165, R168). -/
def Obligations.PixelMissEmitsLuma : Prop :=
  ∀ (r g b a : Byte) (p : Pixel) (dr dg db : Int) (s : State),
    s.mode = .encoding → s.run.toNat ≤ 61 → Memory.wf s.cacheInit s.cache = true →
    p = normalise s.descCh ⟨r, g, b, a⟩ → p ≠ s.prev → probe (hashOf p) s ≠ some p → p.a = s.prev.a →
    dr = delta p.r s.prev.r → dg = delta p.g s.prev.g → db = delta p.b s.prev.b →
    ¬ ((-2 ≤ dr ∧ dr ≤ 1) ∧ (-2 ≤ dg ∧ dg ≤ 1) ∧ (-2 ≤ db ∧ db ≤ 1)) →
    (-32 ≤ dg ∧ dg ≤ 31) → (-8 ≤ dr - dg ∧ dr - dg ≤ 7) → (-8 ≤ db - dg ∧ db - dg ≤ 7) →
    ∃ m : Memory, StoredIn p s m ∧
      exec (.pixel r g b a) s = .next
        (afterPixel p
          (pendingRunBytes s ++
            [BitVec.ofInt 8 (0x80 + (dg + 32)), BitVec.ofInt 8 ((dr - dg + 8) * 16 + (db - dg + 8))]
            ++ lastPixelBytes s) 0 m s)

/-- A miss with the alpha unchanged and neither SmallDiff nor Luma: the pixel is stored and OP_RGB emitted
(42_pixel_selector.md R146; 43_opcode_serializer.md R165, R169). -/
def Obligations.PixelMissEmitsRgb : Prop :=
  ∀ (r g b a : Byte) (p : Pixel) (dr dg db : Int) (s : State),
    s.mode = .encoding → s.run.toNat ≤ 61 → Memory.wf s.cacheInit s.cache = true →
    p = normalise s.descCh ⟨r, g, b, a⟩ → p ≠ s.prev → probe (hashOf p) s ≠ some p → p.a = s.prev.a →
    dr = delta p.r s.prev.r → dg = delta p.g s.prev.g → db = delta p.b s.prev.b →
    ¬ ((-2 ≤ dr ∧ dr ≤ 1) ∧ (-2 ≤ dg ∧ dg ≤ 1) ∧ (-2 ≤ db ∧ db ≤ 1)) →
    ¬ ((-32 ≤ dg ∧ dg ≤ 31) ∧ (-8 ≤ dr - dg ∧ dr - dg ≤ 7) ∧ (-8 ≤ db - dg ∧ db - dg ≤ 7)) →
    ∃ m : Memory, StoredIn p s m ∧
      exec (.pixel r g b a) s = .next
        (afterPixel p (pendingRunBytes s ++ [0xFE, p.r, p.g, p.b] ++ lastPixelBytes s) 0 m s)

/-- A miss with the alpha changed: the pixel is stored and OP_RGBA emitted, whatever the deltas
(42_pixel_selector.md R146; 43_opcode_serializer.md R165, R170). -/
def Obligations.PixelMissEmitsRgba : Prop :=
  ∀ (r g b a : Byte) (p : Pixel) (s : State),
    s.mode = .encoding → s.run.toNat ≤ 61 → Memory.wf s.cacheInit s.cache = true →
    p = normalise s.descCh ⟨r, g, b, a⟩ → probe (hashOf p) s ≠ some p → p.a ≠ s.prev.a →
    ∃ m : Memory, StoredIn p s m ∧
      exec (.pixel r g b a) s = .next
        (afterPixel p (pendingRunBytes s ++ [0xFF, p.r, p.g, p.b, p.a] ++ lastPixelBytes s) 0 m s)

/-- "PIXEL is held, with no step and no state change, while MODE ≠ ENCODING", and stays offered; in ENCODING it is
taken; "RESET does not consume it" (42_pixel_selector.md R142), and on its turn runs. That a held PIXEL is a step in which the turn passes is the
model's choice (log entries 1, 2). -/
def Obligations.PixelHeldStaysOffered : Prop :=
  ∀ (s : State) (b : PixBeat) (bs : List PixBeat) (ts : List Turn),
    s.bench = none → s.pixOffers = b :: bs →
    (s.turns = .pix :: ts → s.mode ≠ .encoding → step s = .next { s with turns := ts }) ∧
    (s.turns = .pix :: ts → s.mode = .encoding →
      step s = exec (decodePixel b) { s with pixOffers := bs, turns := ts }) ∧
    (s.turns = .rst :: ts → step s = exec .reset { s with turns := ts } ∧
      ∃ t : State, step s = .next t ∧ t.pixOffers = b :: bs ∧ t.turns = ts)

/-- "At the end of every PIXEL step, PREV is set to the step's normalised pixel p, whichever path the step took"
(42_pixel_selector.md R147); PIX_REMAIN falls by 1 and the step ends the encode exactly when it reaches 0 (R148). -/
def Obligations.PixelUpdatesPrevAndCount : Prop :=
  ∀ (r g b a : Byte) (s : State), s.mode = .encoding →
    ∃ t : State, exec (.pixel r g b a) s = .next t ∧
      t.prev = normalise s.descCh ⟨r, g, b, a⟩ ∧
      t.pixRemain = s.pixRemain - 1 ∧
      (t.mode = .done ↔ t.pixRemain = 0) ∧ (t.mode = .encoding ↔ t.pixRemain ≠ 0)

/-- How many bytes a PIXEL step emits, by case, and "one step emits at most 14 bytes" (42_pixel_selector.md R150). -/
def Obligations.PixelStepByteCounts : Prop :=
  ∀ (r g b a : Byte) (p : Pixel) (s : State),
    s.mode = .encoding → s.run.toNat ≤ 61 → p = normalise s.descCh ⟨r, g, b, a⟩ →
    ∃ (t : State) (bytes : List Byte), exec (.pixel r g b a) s = .next t ∧
      t.out = s.out ++ bytes ++ lastPixelBytes s ∧
      (p = s.prev → s.run.toNat + 1 < 62 → s.pixRemain ≠ 1 → bytes.length = 0) ∧
      (p = s.prev → (s.run.toNat + 1 = 62 ∨ s.pixRemain = 1) → bytes.length = 1) ∧
      (p ≠ s.prev → s.run = 0 → bytes.length ∈ [1, 2, 4, 5]) ∧
      (p ≠ s.prev → s.run ≠ 0 → bytes.length ∈ [2, 3, 5, 6]) ∧
      bytes.length + (lastPixelBytes s).length ≤ 14

/-- One PIXEL step appends at most one OP_RUN, then at most one other token, then the end marker if it is the last
pixel (42_pixel_selector.md R149); each of its bytes belongs to one of them, and its pixel is counted exactly once:
the pixels the tokens stand for and the pixels still pending add up (R152). -/
def Obligations.PixelStepTokens : Prop :=
  ∀ (r g b a : Byte) (s : State), s.mode = .encoding → s.run.toNat ≤ 61 →
    ∃ (t : State) (flush one : List Instr), exec (.pixel r g b a) s = .next t ∧
      flush.length ≤ 1 ∧ one.length ≤ 1 ∧
      (∀ k ∈ flush, ∃ l : BitVec 6, k = .opRun l) ∧ (∀ k ∈ one, k.isToken = true ∧ ∀ l : BitVec 6, k ≠ .opRun l) ∧
      (∀ k ∈ flush ++ one, k.wellFormed = true) ∧
      t.out = s.out ++ flush.flatMap unitBytes ++ one.flatMap unitBytes ++ lastPixelBytes s ∧
      ((flush ++ one).map tokenPixels).sum + t.run.toNat = s.run.toNat + 1

/-- With DESC_CH = 3 the `pix_a` input changes nothing, and "no OP_RGBA is ever emitted" (42_pixel_selector.md R141,
41_color_cache.md R126): what a step appends is at most two well-formed tokens, none an OP_RGBA, and the end marker. -/
def Obligations.ThreeChannelIgnoresAlpha : Prop :=
  ∀ (r g b a a' : Byte) (s : State), Inv s → s.mode = .encoding → s.descCh = 3 →
    exec (.pixel r g b a) s = exec (.pixel r g b a') s ∧
    ∃ (t : State) (toks : List Instr), exec (.pixel r g b a) s = .next t ∧ t.prev.a = 255 ∧
      t.out = s.out ++ toks.flatMap unitBytes ++ lastPixelBytes s ∧
      toks.length ≤ 2 ∧
      (∀ k ∈ toks, k.isToken = true ∧ k.wellFormed = true ∧ ∀ x y z u : Byte, k ≠ .opRgba x y z u)

/-- After START no rule reads DESC_W, DESC_H or DESC_CS: PIXELs and DRAINs do the same whatever those latches hold,
so the body depends on the dimensions only through PIX_REMAIN (40_start_header.md R105, R106). -/
def Obligations.GeometryDoesNotReachBody : Prop :=
  ∀ (cmds : List Instr) (s t : State) (w h : BitVec 32) (cs : BitVec 1),
    (∀ i ∈ cmds, isPixelOrDrain i = true) → runAll cmds s = .next t →
    runAll cmds { s with descW := w, descH := h, descCs := cs } =
      .next { t with descW := w, descH := h, descCs := cs }

/-- Cache read-after-write between pixels, on consecutive A, B, A of a 4-channel encode with A ≠ PREV (70_reset_and_hazards.md
R244): with different hashes the second A is OP_INDEX hash(A); with equal hashes it is a miss. -/
def Obligations.CacheReadAfterWrite : Prop :=
  ∀ (A B : Pixel) (s : State), Inv s → s.mode = .encoding → s.descCh = 4 → 3 < s.pixRemain.toNat →
    A ≠ s.prev → A ≠ B →
    ∃ t1 t2 t3 : State,
      exec (.pixel A.r A.g A.b A.a) s = .next t1 ∧ exec (.pixel B.r B.g B.b B.a) t1 = .next t2 ∧
      exec (.pixel A.r A.g A.b A.a) t2 = .next t3 ∧
      (hashOf A ≠ hashOf B → t3.out = t2.out ++ unitBytes (.opIndex (hashOf A))) ∧
      (hashOf A = hashOf B →
        probe (hashOf A) t1 = some A ∧ probe (hashOf A) t2 = some B ∧
        ∃ k : Instr, k.isToken = true ∧ (∀ idx : BitVec 6, k ≠ .opIndex idx) ∧ t3.out = t2.out ++ unitBytes k)

/-! ## DRAIN, SINKFAIL, RESET -/

/-- DRAIN while OUTQ is not empty: the sink gets `OUT[SENT]`, with `out_last` exactly on the last byte of a finished
stream, SENT advances by 1, OUT and everything else stay (44_byte_packer_termination.md R191, R192). -/
def Obligations.DrainTransfersNextByte : Prop :=
  ∀ s : State, s.sent < s.out.length → s.mode ≠ .error →
    ∃ x : Byte, s.out[s.sent]? = some x ∧
      exec .drain s = .next
        { s with
          sent := s.sent + 1
          sink := s.sink ++ [⟨x, decide (s.mode = .done ∧ s.sent + 1 = s.out.length)⟩] }

/-- DRAIN is held while OUTQ is empty (44_byte_packer_termination.md R191) and "stays offered" (00_scope.md R9): only the
turn passes, and the sink's offer stands until a later turn finds a byte and takes it. That exec leaves the state and a
step lets the turn pass is the model's choice (log entries 1, 2). -/
def Obligations.DrainHeldWhenQueueEmpty : Prop :=
  ∀ s : State,
    (s.sent = s.out.length → exec .drain s = .next s) ∧
    ∀ (n : Nat) (ts : List Turn), s.bench = none → s.turns = .out :: ts → s.outOffers = n + 1 →
      (s.sent = s.out.length → step s = .next { s with turns := ts }) ∧
      (s.sent < s.out.length → s.mode ≠ .error →
        step s = exec .drain { s with outOffers := n, turns := ts } ∧
        outValid { s with outOffers := n, turns := ts } = true)

/-- PIXEL steps and DRAINs do not disturb each other: either order gives the same state (60_exceptions.md R221,
10_state.md R28). -/
def Obligations.DrainCommutesWithPixel : Prop :=
  ∀ (r g b a : Byte) (s : State), Inv s → s.mode = .encoding → s.sent < s.out.length →
    ∃ t : State, runAll [.drain, .pixel r g b a] s = .next t ∧ runAll [.pixel r g b a, .drain] s = .next t

/-- SINKFAIL during an encode, or in DONE with bytes pending, raises SinkFailure; "In any other state it is ignored:
it is taken with no state change" (60_exceptions.md R213, R215). -/
def Obligations.SinkFailRaisesOrIsIgnored : Prop :=
  ∀ s : State, s.sent ≤ s.out.length →
    ((s.mode = .encoding ∨ (s.mode = .done ∧ s.sent < s.out.length)) →
      exec .sinkfail s = .next (afterError .sinkFailure s)) ∧
    (¬ (s.mode = .encoding ∨ (s.mode = .done ∧ s.sent < s.out.length)) → exec .sinkfail s = .next s)

/-- "RESET can be taken in any state, and always succeeds": every element at its reset value, every cache slot
(0,0,0,0) under ZERO and empty under EMPTY, offers, sink and CACHE_INIT untouched (70_reset_and_hazards.md R240, 10_state.md
R43, 41_color_cache.md R125). -/
def Obligations.ResetRestoresBlock : Prop :=
  ∀ s : State, ∃ m : Memory, AllInitial s.cacheInit m ∧
    exec .reset s = .next
      { s with
        mode := .idle
        err := .none
        descW := 0
        descH := 0
        descCh := 0
        descCs := 0
        pixRemain := 0
        outCount := 0
        prev := ⟨0, 0, 0, 255⟩
        run := 0
        cache := m
        out := []
        sent := 0 }

/-- The state after RESET (10_state.md R43): the values of the rule, STATUS = 0x0, `out_valid` = 0, and every slot
(0,0,0,0), CACHE_INIT being ZERO there (41_color_cache.md R125; log entry 7). -/
def Obligations.ResetStateValues : Prop :=
  State.reset.mode = .idle ∧ State.reset.err = .none ∧ status State.reset = 0x0 ∧
  State.reset.pixRemain = 0 ∧ State.reset.outCount = 0 ∧ State.reset.out = [] ∧ State.reset.sent = 0 ∧
  outQueue State.reset = [] ∧ outValid State.reset = false ∧
  State.reset.descW = 0 ∧ State.reset.descH = 0 ∧ State.reset.descCh = 0 ∧ State.reset.descCs = 0 ∧
  State.reset.prev = ⟨0, 0, 0, 255⟩ ∧ State.reset.run = 0 ∧
  AllInitial State.reset.cacheInit State.reset.cache ∧ ∀ h : BitVec 6, probe h State.reset = some ⟨0, 0, 0, 0⟩

/-! ## The machine -/

/-- `STATUS = {ERR[1:0], MODE[1:0]}`, and the combinations that never occur do not (10_state.md R29, R30, R31). -/
def Obligations.StatusIsErrAndMode : Prop :=
  ∀ s : State, Inv s →
    (s.mode = .idle → status s = 0x0) ∧ (s.mode = .encoding → status s = 0x1) ∧ (s.mode = .done → status s = 0x2) ∧
    (s.mode = .error →
      (s.err = .invalidDimensions ∧ status s = 0x7) ∨ (s.err = .unsupportedChannelCount ∧ status s = 0xB) ∨
      (s.err = .sinkFailure ∧ status s = 0xF))

/-- A step runs the decoded instruction on the state its transfer leaves: the beat is off its channel where the
command is enabled and stays offered where it is not, and the turn has passed (10_state.md R28; log entries 1, 2, 4). -/
def Obligations.StepRunsDecodedCommand : Prop :=
  ∀ (s : State) (i : Instr) (ts : List Turn),
    (∀ b bs, s.bench = none → s.turns = .cfg :: ts → s.cfgOffers = b :: bs → decode (.cfg b) = .ok i →
      step s = exec i (if enabled i s then { s with cfgOffers := bs, turns := ts } else { s with turns := ts })) ∧
    (∀ b bs, s.bench = none → s.turns = .pix :: ts → s.pixOffers = b :: bs → decode (.pix b) = .ok i →
      step s = exec i (if enabled i s then { s with pixOffers := bs, turns := ts } else { s with turns := ts })) ∧
    (∀ n, s.bench = none → s.turns = .out :: ts → s.outOffers = n + 1 →
      step s = exec .drain (if outValid s then { s with outOffers := n, turns := ts } else { s with turns := ts })) ∧
    (s.bench = none → s.turns = .sinkErr :: ts → step s = exec .sinkfail { s with turns := ts }) ∧
    (s.bench = none → s.turns = .rst :: ts → step s = exec .reset { s with turns := ts }) ∧
    (∀ bytes, s.bench = some bytes → decode (.outUnit bytes) = .ok i → step s = exec i { s with bench := none })

/-- Where nothing is offered the block waits (10_state.md R28; 70_reset_and_hazards.md R240). That a channel's turn with
nothing offered passes is the model's choice (log entry 1), and so is that a step with no turn left leaves the state (log
entries 1, 9). -/
def Obligations.StepWaitsWithoutOffer : Prop :=
  ∀ s : State, s.bench = none →
    (s.turns = [] → step s = .next s) ∧
    (∀ ts, s.turns = .cfg :: ts → s.cfgOffers = [] → step s = .next { s with turns := ts }) ∧
    (∀ ts, s.turns = .pix :: ts → s.pixOffers = [] → step s = .next { s with turns := ts }) ∧
    (∀ ts, s.turns = .out :: ts → s.outOffers = 0 → step s = .next { s with turns := ts })

/-- The invariants hold in the state after RESET. -/
def Obligations.ResetStateMeetsInvariant : Prop := Inv State.reset

/-- "Every step preserves the following invariants" (10_state.md R42), with what the model adds to them. -/
def Obligations.StepKeepsInvariant : Prop :=
  ∀ s t : State, Inv s → step s = .next t → Inv t

/-- "The sink therefore sees a stream that is only ever appended to" (20_memory.md R55): no instruction takes back or
changes a transfer, and none but START and RESET takes a delivered byte out of OUT. -/
def Obligations.SinkStreamIsAppendOnly : Prop :=
  ∀ (i : Instr) (s t : State), exec i s = .next t →
    s.sink <+: t.sink ∧ t.sink.length ≤ s.sink.length + 1 ∧
    ((∀ w h ch cs, i ≠ .start w h ch cs) → i ≠ .reset → s.out.take s.sent <+: t.out ∧ s.sent ≤ t.sent)

/-- A successful encode (44_byte_packer_termination.md R196): the sink has received all of OUT, in order, and
`out_last` was 1 on the final byte and on no other (R192, R193). -/
def Obligations.SuccessReachedTheSink : Prop :=
  ∀ s : State, Inv s → Succeeded s →
    ∃ (earlier stream : List Transfer), s.sink = earlier ++ stream ++ [⟨0x01, true⟩] ∧
      s.out = stream.map Transfer.byte ++ [0x01] ∧ ∀ x ∈ stream, x.last = false

/-- "CACHE is written in exactly two places": CacheInit, and the store of a PIXEL's miss at hash(p), at most once per
step (41_color_cache.md R127). -/
def Obligations.CacheWrittenOnlyByMissOrInit : Prop :=
  ∀ (i : Instr) (s t : State), Memory.wf s.cacheInit s.cache = true → exec i s = .next t →
    t.cacheInit = s.cacheInit ∧
    ((∀ h : BitVec 6, probe h t = probe h s) ∨
     (((∃ w h ch cs, i = .start w h ch cs ∧ ValidDescriptor w h ch) ∨ i = .reset) ∧ AllInitial t.cacheInit t.cache) ∨
     (∃ r g b a p, i = .pixel r g b a ∧ p = normalise s.descCh ⟨r, g, b, a⟩ ∧ p ≠ s.prev ∧
       probe (hashOf p) s ≠ some p ∧ probe (hashOf p) t = some p ∧
       ∀ h : BitVec 6, h ≠ hashOf p → probe h t = probe h s))

/-- MODE is written only by a valid START, by the last pixel's Finish, by error entry and by RESET (10_state.md R29);
the rows END_MARKER and HEADER are the operations those rules call (log entry 4). -/
def Obligations.ModeWriters : Prop :=
  ∀ (i : Instr) (s t : State), exec i s = .next t → t.mode ≠ s.mode →
    (∃ w h ch cs, i = .start w h ch cs ∧ ValidDescriptor w h ch ∧ t.mode = .encoding) ∨
    (∃ r g b a, i = .pixel r g b a ∧ s.mode = .encoding ∧ s.pixRemain = 1 ∧ t.mode = .done) ∨
    (i = .endMarker ∧ t.mode = .done) ∨
    (t.mode = .error ∧ t.err ≠ .none ∧
      ((∃ w h ch cs, (i = .start w h ch cs ∨ i = .header w h ch cs) ∧ ¬ ValidDescriptor w h ch) ∨ i = .sinkfail)) ∨
    (i = .reset ∧ t.mode = .idle)

/-- DESC_* are written by an accepted valid START, and cleared by RESET, and by nothing else (10_state.md R32 with
70_reset_and_hazards.md R240; log entry 13). -/
def Obligations.DescriptorWriters : Prop :=
  ∀ (i : Instr) (s t : State), exec i s = .next t →
    (t.descW = s.descW ∧ t.descH = s.descH ∧ t.descCh = s.descCh ∧ t.descCs = s.descCs) ∨
    (∃ w h ch cs, i = .start w h ch cs ∧ ValidDescriptor w h ch ∧
      t.descW = w ∧ t.descH = h ∧ t.descCh = ch ∧ t.descCs = cs) ∨
    (i = .reset ∧ t.descW = 0 ∧ t.descH = 0 ∧ t.descCh = 0 ∧ t.descCs = 0)

/-- "PIXEL, DRAIN and the status read never raise an error": they always have a next state, which is no new error, and
RUN and PIX_REMAIN stay in range (60_exceptions.md R220). That a held one has a next state, the state itself, is the model's
choice (log entry 2). -/
def Obligations.PixelAndDrainRaiseNothing : Prop :=
  ∀ (i : Instr) (s : State), isPixelOrDrain i = true → Inv s →
    ∃ t : State, exec i s = .next t ∧ t.err = s.err ∧ (t.mode = .error → s.mode = .error) ∧
      t.run.toNat ≤ 61 ∧ t.pixRemain.toNat ≤ s.pixRemain.toNat

/-- In ERROR: PIXEL and DRAIN are held, SINKFAIL is ignored, START and RESET are enabled, and STATUS shows MODE = 3
with the error's code (60_exceptions.md R216). That exec of a held command answers the state unchanged is the model's choice
(log entry 2). -/
def Obligations.ErrorStateCommands : Prop :=
  ∀ s : State, Inv s → Failed s →
    (∀ r g b a, exec (.pixel r g b a) s = .next s) ∧ exec .drain s = .next s ∧ exec .sinkfail s = .next s ∧
    cfgReady s = true ∧ pixReady s = false ∧ outValid s = false ∧ enabled .reset s = true ∧
    s.err ≠ .none ∧ status s = s.err.code ++ (3 : BitVec 2)

/-! ## Operand arithmetic -/

/-- `hash(p) = (3*r + 5*g + 7*b + 11*a) mod 64` with the sum in [0, 6630] (41_color_cache.md R120); "the low 6 bits of
the weighted sum", by a 13-bit adder or with each product cut to 6 bits first (R121). -/
def Obligations.HashHardwareForm : Prop :=
  ∀ p : Pixel,
    (hashOf p).toNat = (3 * p.r.toNat + 5 * p.g.toNat + 7 * p.b.toNat + 11 * p.a.toNat) % 64 ∧
    3 * p.r.toNat + 5 * p.g.toNat + 7 * p.b.toNat + 11 * p.a.toNat ≤ 6630 ∧
    hashOf p =
      (3 * p.r.setWidth 13 + 5 * p.g.setWidth 13 + 7 * p.b.setWidth 13 + 11 * p.a.setWidth 13).extractLsb' 0 6 ∧
    hashOf p = 3 * p.r.setWidth 6 + 5 * p.g.setWidth 6 + 7 * p.b.setWidth 6 + 11 * p.a.setWidth 6

/-- `dr <- sext_8(wrap8(p.r - PREV.r))` "in [-128, 127]" (43_opcode_serializer.md R160): the one value in that range
that equals the difference modulo 256, with the rule's corner cases. -/
def Obligations.DeltaIsWrappedDifference : Prop :=
  (∀ (c q : Byte) (d : Int), delta c q = d ↔
    (-128 ≤ d ∧ d ≤ 127 ∧ (d - ((c.toNat : Int) - (q.toNat : Int))) % 256 = 0)) ∧
  delta 0 255 = 1 ∧ delta 255 0 = -1 ∧ delta 128 0 = -128 ∧ delta 0 128 = -128 ∧ delta 127 0 = 127

/-- "In hardware it is equivalent to testing `wrap8(p.c - PREV.c + 2) <= 3` for each channel c in {r, g, b}. That test
also gives each 2-bit field `dc + 2` directly." (43_opcode_serializer.md R162) -/
def Obligations.SmallDiffHardwareForm : Prop :=
  ∀ p q : Pixel,
    (smallDiff (deltas p q) = true ↔
      (p.r - q.r + 2).toNat ≤ 3 ∧ (p.g - q.g + 2).toNat ≤ 3 ∧ (p.b - q.b + 2).toNat ≤ 3) ∧
    (smallDiff (deltas p q) = true →
      biased 2 2 (deltas p q).dr = (p.r - q.r + 2).setWidth 2 ∧
      biased 2 2 (deltas p q).dg = (p.g - q.g + 2).setWidth 2 ∧
      biased 2 2 (deltas p q).db = (p.b - q.b + 2).setWidth 2)

/-- "the predicate of rule R163 and the field values of rule R168 are the same under both readings", the luma
differences taken as integers or wrapped again to 8 bits (43_opcode_serializer.md R161); and SmallDiff implies Luma
(R163). -/
def Obligations.LumaWrapIrrelevant : Prop :=
  ∀ (p q : Pixel) (d : DeltaRgb), d = deltas p q →
    (luma d = true ↔
      (-32 ≤ d.dg ∧ d.dg ≤ 31) ∧
      (-8 ≤ sext8 (wrap8 (d.dr - d.dg)) ∧ sext8 (wrap8 (d.dr - d.dg)) ≤ 7) ∧
      (-8 ≤ sext8 (wrap8 (d.db - d.dg)) ∧ sext8 (wrap8 (d.db - d.dg)) ≤ 7)) ∧
    (luma d = true →
      biased 4 8 (sext8 (wrap8 (d.dr - d.dg))) = biased 4 8 (d.dr - d.dg) ∧
      biased 4 8 (sext8 (wrap8 (d.db - d.dg))) = biased 4 8 (d.db - d.dg)) ∧
    (smallDiff d = true → luma d = true)

/-! ## Whole encodes -/

/-- "One successful encode produces, in this order": the 14-byte header, tokens with their fields in range, between 1
and width × height of them, and the end marker (30_encoding.md R70, R78); run lengths and other tokens add up to
width × height pixels (42_pixel_selector.md R152). DRAINs may fall anywhere among the PIXELs. -/
def Obligations.StreamLayout : Prop :=
  ∀ (w h : BitVec 32) (ch : Byte) (cs : BitVec 1) (cmds : List Instr) (s : State),
    s.mode ≠ .encoding → s.sent = s.out.length → WholeEncode w h ch cmds →
    ∃ (t : State) (toks : List Instr), runAll (.start w h ch cs :: cmds) s = .next t ∧ t.mode = .done ∧
      t.out = unitBytes (.header w h ch cs) ++ toks.flatMap unitBytes ++ unitBytes .endMarker ∧
      (∀ k ∈ toks, k.isToken = true ∧ k.wellFormed = true) ∧
      1 ≤ toks.length ∧ toks.length ≤ w.toNat * h.toNat ∧
      (toks.map tokenPixels).sum = w.toNat * h.toNat

/-- For an image of N pixels "a successful encode has |OUT| = 14 + B + 8 ... and `ceil(N / 62) <= B <= 5 * N`"
(44_byte_packer_termination.md R195). -/
def Obligations.EncodeSizeBounds : Prop :=
  ∀ (w h : BitVec 32) (ch : Byte) (cs : BitVec 1) (cmds : List Instr) (s : State),
    s.mode ≠ .encoding → s.sent = s.out.length → WholeEncode w h ch cmds →
    ∃ (t : State) (B : Nat), runAll (.start w h ch cs :: cmds) s = .next t ∧ t.mode = .done ∧
      t.out.length = 14 + B + 8 ∧
      (w.toNat * h.toNat + 61) / 62 ≤ B ∧ B ≤ 5 * (w.toNat * h.toNat)

/-- "For every successful encode under a given CACHE_INIT, `Decode(OUT, CACHE_INIT)` returns the descriptor and the
normalised pixel sequence." (44_byte_packer_termination.md R197) -/
def Obligations.LosslessRoundTrip : Prop :=
  ∀ (w h : BitVec 32) (ch : Byte) (cs : BitVec 1) (cmds : List Instr) (s : State),
    s.mode ≠ .encoding → s.sent = s.out.length → WholeEncode w h ch cmds →
    ∃ t : State, runAll (.start w h ch cs :: cmds) s = .next t ∧ t.mode = .done ∧
      decodeStream s.cacheInit t.out = some ⟨w, h, ch, cs, (pixelsOf cmds).map (normalise ch)⟩

/-- A 3-channel encode gives the same stream under CACHE_INIT = ZERO and under EMPTY: a pixel on which they differ
"needs alpha = 0, so it can arise only when DESC_CH = 4" (41_color_cache.md R128). -/
def Obligations.CacheInitUnobservableThreeChannel : Prop :=
  ∀ (w h : BitVec 32) (cs : BitVec 1) (cmds : List Instr) (s : State),
    s.mode ≠ .encoding → s.sent = s.out.length → WholeEncode w h 3 cmds →
    ∃ t u : State,
      runAll (.start w h 3 cs :: cmds) { s with cacheInit := .zero } = .next t ∧
      runAll (.start w h 3 cs :: cmds) { s with cacheInit := .empty } = .next u ∧
      t.out = u.out ∧ t.sink = u.sink ∧ status t = status u

/-- The pixel on which ZERO and EMPTY differ (41_color_cache.md R128.2): (0,0,0,0) in a 4-channel encode, no run
continuation, slot 0 as CacheInit left it. "Under ZERO it is an OP_INDEX 0. Under EMPTY it is a miss, which stores (0,0,0,0) in
slot 0". -/
def Obligations.ZeroPixelHitsUnderZeroOnly : Prop :=
  ∀ s : State,
    s.mode = .encoding → s.descCh = 4 → s.run.toNat ≤ 61 → Memory.wf s.cacheInit s.cache = true →
    (⟨0, 0, 0, 0⟩ : Pixel) ≠ s.prev → InitialSlot s.cacheInit (probe 0 s) →
    (s.cacheInit = .zero →
      exec (.pixel 0 0 0 0) s =
        .next (afterPixel ⟨0, 0, 0, 0⟩ (pendingRunBytes s ++ [0x00] ++ lastPixelBytes s) 0 s.cache s)) ∧
    (s.cacheInit = .empty →
      ∃ (m : Memory) (k : Instr),
        Memory.read .empty m 0 = some ⟨0, 0, 0, 0⟩ ∧
        (∀ h : BitVec 6, h ≠ 0 → Memory.read .empty m h.toNat = probe h s) ∧
        k.isToken = true ∧ k.wellFormed = true ∧ (∀ idx : BitVec 6, k ≠ .opIndex idx) ∧ (∀ l : BitVec 6, k ≠ .opRun l) ∧
        exec (.pixel 0 0 0 0) s =
          .next (afterPixel ⟨0, 0, 0, 0⟩ (pendingRunBytes s ++ unitBytes k ++ lastPixelBytes s) 0 m s))

/-- "from then on the two readings behave identically" (41_color_cache.md R128.2), `z` under ZERO and `e` under EMPTY. The
pixel of that rule leaves two blocks whose slot 0 reads the same, though their OUTs now differ. Two blocks whose slot 0
reads the same append the same bytes for the same PIXELs, wherever the DRAINs fall, leave the same MODE, ERR, RUN, PREV
and PIX_REMAIN (a part of EncodersAgree), and agree again, so that it holds of each command and of all that follow. -/
def Obligations.CacheInitSameOnceSlotZeroAgrees : Prop :=
  (∀ z e : State, EncodersAgree z e → z.mode = .encoding → z.descCh = 4 → (⟨0, 0, 0, 0⟩ : Pixel) ≠ z.prev →
    InitialSlot .zero (probe 0 z) → InitialSlot .empty (probe 0 e) →
    ∃ t u : State, exec (.pixel 0 0 0 0) z = .next t ∧ exec (.pixel 0 0 0 0) e = .next u ∧
      EncodersAgree t u ∧ probe 0 t = probe 0 u) ∧
  ∀ (cmdsZ cmdsE : List Instr) (z e : State),
    (∀ i ∈ cmdsZ, isPixelOrDrain i = true) → (∀ i ∈ cmdsE, isPixelOrDrain i = true) →
    pixelsOf cmdsZ = pixelsOf cmdsE → EncodersAgree z e → probe 0 z = probe 0 e →
    ∃ (t u : State) (bytes : List Byte),
      runAll cmdsZ z = .next t ∧ runAll cmdsE e = .next u ∧
      t.out = z.out ++ bytes ∧ t.outCount = z.outCount + BitVec.ofNat 64 bytes.length ∧
      u.out = e.out ++ bytes ∧ u.outCount = e.outCount + BitVec.ofNat 64 bytes.length ∧
      EncodersAgree t u ∧ probe 0 t = probe 0 u
end

