-- ==== Sys2Proof/Laws/State.lean ====
section
/-! SUPPORT. One lemma per field per update: what each named operation leaves in every field of State. -/

namespace Sys2Proof.Machine

/-! ### emit -/

@[simp] theorem emit_mode (b : Byte) (s : State) : (emit b s).mode = s.mode := rfl
@[simp] theorem emit_err (b : Byte) (s : State) : (emit b s).err = s.err := rfl
@[simp] theorem emit_descW (b : Byte) (s : State) : (emit b s).descW = s.descW := rfl
@[simp] theorem emit_descH (b : Byte) (s : State) : (emit b s).descH = s.descH := rfl
@[simp] theorem emit_descCh (b : Byte) (s : State) : (emit b s).descCh = s.descCh := rfl
@[simp] theorem emit_descCs (b : Byte) (s : State) : (emit b s).descCs = s.descCs := rfl
@[simp] theorem emit_pixRemain (b : Byte) (s : State) : (emit b s).pixRemain = s.pixRemain := rfl
@[simp] theorem emit_outCount (b : Byte) (s : State) : (emit b s).outCount = s.outCount + 1 := rfl
@[simp] theorem emit_prev (b : Byte) (s : State) : (emit b s).prev = s.prev := rfl
@[simp] theorem emit_run (b : Byte) (s : State) : (emit b s).run = s.run := rfl
@[simp] theorem emit_cache (b : Byte) (s : State) : (emit b s).cache = s.cache := rfl
@[simp] theorem emit_out (b : Byte) (s : State) : (emit b s).out = s.out ++ [b] := rfl
@[simp] theorem emit_sent (b : Byte) (s : State) : (emit b s).sent = s.sent := rfl
@[simp] theorem emit_cacheInit (b : Byte) (s : State) : (emit b s).cacheInit = s.cacheInit := rfl
@[simp] theorem emit_cfgOffers (b : Byte) (s : State) : (emit b s).cfgOffers = s.cfgOffers := rfl
@[simp] theorem emit_pixOffers (b : Byte) (s : State) : (emit b s).pixOffers = s.pixOffers := rfl
@[simp] theorem emit_outOffers (b : Byte) (s : State) : (emit b s).outOffers = s.outOffers := rfl
@[simp] theorem emit_turns (b : Byte) (s : State) : (emit b s).turns = s.turns := rfl
@[simp] theorem emit_sink (b : Byte) (s : State) : (emit b s).sink = s.sink := rfl
@[simp] theorem emit_bench (b : Byte) (s : State) : (emit b s).bench = s.bench := rfl

/-! ### emitRun -/

@[simp] theorem emitRun_mode (l : BitVec 6) (s : State) : (emitRun l s).mode = s.mode := rfl
@[simp] theorem emitRun_err (l : BitVec 6) (s : State) : (emitRun l s).err = s.err := rfl
@[simp] theorem emitRun_descW (l : BitVec 6) (s : State) : (emitRun l s).descW = s.descW := rfl
@[simp] theorem emitRun_descH (l : BitVec 6) (s : State) : (emitRun l s).descH = s.descH := rfl
@[simp] theorem emitRun_descCh (l : BitVec 6) (s : State) : (emitRun l s).descCh = s.descCh := rfl
@[simp] theorem emitRun_descCs (l : BitVec 6) (s : State) : (emitRun l s).descCs = s.descCs := rfl
@[simp] theorem emitRun_pixRemain (l : BitVec 6) (s : State) : (emitRun l s).pixRemain = s.pixRemain := rfl
@[simp] theorem emitRun_outCount (l : BitVec 6) (s : State) : (emitRun l s).outCount = s.outCount + 1 := rfl
@[simp] theorem emitRun_prev (l : BitVec 6) (s : State) : (emitRun l s).prev = s.prev := rfl
@[simp] theorem emitRun_run (l : BitVec 6) (s : State) : (emitRun l s).run = 0 := rfl
@[simp] theorem emitRun_cache (l : BitVec 6) (s : State) : (emitRun l s).cache = s.cache := rfl
@[simp] theorem emitRun_out (l : BitVec 6) (s : State) : (emitRun l s).out = s.out ++ [0xC0 ||| l.setWidth 8] := rfl
@[simp] theorem emitRun_sent (l : BitVec 6) (s : State) : (emitRun l s).sent = s.sent := rfl
@[simp] theorem emitRun_cacheInit (l : BitVec 6) (s : State) : (emitRun l s).cacheInit = s.cacheInit := rfl
@[simp] theorem emitRun_cfgOffers (l : BitVec 6) (s : State) : (emitRun l s).cfgOffers = s.cfgOffers := rfl
@[simp] theorem emitRun_pixOffers (l : BitVec 6) (s : State) : (emitRun l s).pixOffers = s.pixOffers := rfl
@[simp] theorem emitRun_outOffers (l : BitVec 6) (s : State) : (emitRun l s).outOffers = s.outOffers := rfl
@[simp] theorem emitRun_turns (l : BitVec 6) (s : State) : (emitRun l s).turns = s.turns := rfl
@[simp] theorem emitRun_sink (l : BitVec 6) (s : State) : (emitRun l s).sink = s.sink := rfl
@[simp] theorem emitRun_bench (l : BitVec 6) (s : State) : (emitRun l s).bench = s.bench := rfl

/-! ### raise -/

@[simp] theorem raise_mode (e : Err) (s : State) : (raise e s).mode = .error := rfl
@[simp] theorem raise_err (e : Err) (s : State) : (raise e s).err = e := rfl
@[simp] theorem raise_descW (e : Err) (s : State) : (raise e s).descW = s.descW := rfl
@[simp] theorem raise_descH (e : Err) (s : State) : (raise e s).descH = s.descH := rfl
@[simp] theorem raise_descCh (e : Err) (s : State) : (raise e s).descCh = s.descCh := rfl
@[simp] theorem raise_descCs (e : Err) (s : State) : (raise e s).descCs = s.descCs := rfl
@[simp] theorem raise_pixRemain (e : Err) (s : State) : (raise e s).pixRemain = 0 := rfl
@[simp] theorem raise_outCount (e : Err) (s : State) : (raise e s).outCount = BitVec.ofNat 64 (s.out.take s.sent).length := rfl
@[simp] theorem raise_prev (e : Err) (s : State) : (raise e s).prev = s.prev := rfl
@[simp] theorem raise_run (e : Err) (s : State) : (raise e s).run = 0 := rfl
@[simp] theorem raise_cache (e : Err) (s : State) : (raise e s).cache = s.cache := rfl
@[simp] theorem raise_out (e : Err) (s : State) : (raise e s).out = s.out.take s.sent := rfl
@[simp] theorem raise_sent (e : Err) (s : State) : (raise e s).sent = s.sent := rfl
@[simp] theorem raise_cacheInit (e : Err) (s : State) : (raise e s).cacheInit = s.cacheInit := rfl
@[simp] theorem raise_cfgOffers (e : Err) (s : State) : (raise e s).cfgOffers = s.cfgOffers := rfl
@[simp] theorem raise_pixOffers (e : Err) (s : State) : (raise e s).pixOffers = s.pixOffers := rfl
@[simp] theorem raise_outOffers (e : Err) (s : State) : (raise e s).outOffers = s.outOffers := rfl
@[simp] theorem raise_turns (e : Err) (s : State) : (raise e s).turns = s.turns := rfl
@[simp] theorem raise_sink (e : Err) (s : State) : (raise e s).sink = s.sink := rfl
@[simp] theorem raise_bench (e : Err) (s : State) : (raise e s).bench = s.bench := rfl

/-! ### store -/

@[simp] theorem store_mode (h : BitVec 6) (p : Pixel) (s : State) : (store h p s).mode = s.mode := rfl
@[simp] theorem store_err (h : BitVec 6) (p : Pixel) (s : State) : (store h p s).err = s.err := rfl
@[simp] theorem store_descW (h : BitVec 6) (p : Pixel) (s : State) : (store h p s).descW = s.descW := rfl
@[simp] theorem store_descH (h : BitVec 6) (p : Pixel) (s : State) : (store h p s).descH = s.descH := rfl
@[simp] theorem store_descCh (h : BitVec 6) (p : Pixel) (s : State) : (store h p s).descCh = s.descCh := rfl
@[simp] theorem store_descCs (h : BitVec 6) (p : Pixel) (s : State) : (store h p s).descCs = s.descCs := rfl
@[simp] theorem store_pixRemain (h : BitVec 6) (p : Pixel) (s : State) : (store h p s).pixRemain = s.pixRemain := rfl
@[simp] theorem store_outCount (h : BitVec 6) (p : Pixel) (s : State) : (store h p s).outCount = s.outCount := rfl
@[simp] theorem store_prev (h : BitVec 6) (p : Pixel) (s : State) : (store h p s).prev = s.prev := rfl
@[simp] theorem store_run (h : BitVec 6) (p : Pixel) (s : State) : (store h p s).run = s.run := rfl
@[simp] theorem store_cache (h : BitVec 6) (p : Pixel) (s : State) : (store h p s).cache = Memory.write s.cacheInit h.toNat p s.cache := rfl
@[simp] theorem store_out (h : BitVec 6) (p : Pixel) (s : State) : (store h p s).out = s.out := rfl
@[simp] theorem store_sent (h : BitVec 6) (p : Pixel) (s : State) : (store h p s).sent = s.sent := rfl
@[simp] theorem store_cacheInit (h : BitVec 6) (p : Pixel) (s : State) : (store h p s).cacheInit = s.cacheInit := rfl
@[simp] theorem store_cfgOffers (h : BitVec 6) (p : Pixel) (s : State) : (store h p s).cfgOffers = s.cfgOffers := rfl
@[simp] theorem store_pixOffers (h : BitVec 6) (p : Pixel) (s : State) : (store h p s).pixOffers = s.pixOffers := rfl
@[simp] theorem store_outOffers (h : BitVec 6) (p : Pixel) (s : State) : (store h p s).outOffers = s.outOffers := rfl
@[simp] theorem store_turns (h : BitVec 6) (p : Pixel) (s : State) : (store h p s).turns = s.turns := rfl
@[simp] theorem store_sink (h : BitVec 6) (p : Pixel) (s : State) : (store h p s).sink = s.sink := rfl
@[simp] theorem store_bench (h : BitVec 6) (p : Pixel) (s : State) : (store h p s).bench = s.bench := rfl

/-! ### newStream -/

@[simp] theorem newStream_mode (s : State) : (newStream s).mode = s.mode := rfl
@[simp] theorem newStream_err (s : State) : (newStream s).err = s.err := rfl
@[simp] theorem newStream_descW (s : State) : (newStream s).descW = s.descW := rfl
@[simp] theorem newStream_descH (s : State) : (newStream s).descH = s.descH := rfl
@[simp] theorem newStream_descCh (s : State) : (newStream s).descCh = s.descCh := rfl
@[simp] theorem newStream_descCs (s : State) : (newStream s).descCs = s.descCs := rfl
@[simp] theorem newStream_pixRemain (s : State) : (newStream s).pixRemain = s.pixRemain := rfl
@[simp] theorem newStream_outCount (s : State) : (newStream s).outCount = 0 := rfl
@[simp] theorem newStream_prev (s : State) : (newStream s).prev = s.prev := rfl
@[simp] theorem newStream_run (s : State) : (newStream s).run = s.run := rfl
@[simp] theorem newStream_cache (s : State) : (newStream s).cache = s.cache := rfl
@[simp] theorem newStream_out (s : State) : (newStream s).out = [] := rfl
@[simp] theorem newStream_sent (s : State) : (newStream s).sent = 0 := rfl
@[simp] theorem newStream_cacheInit (s : State) : (newStream s).cacheInit = s.cacheInit := rfl
@[simp] theorem newStream_cfgOffers (s : State) : (newStream s).cfgOffers = s.cfgOffers := rfl
@[simp] theorem newStream_pixOffers (s : State) : (newStream s).pixOffers = s.pixOffers := rfl
@[simp] theorem newStream_outOffers (s : State) : (newStream s).outOffers = s.outOffers := rfl
@[simp] theorem newStream_turns (s : State) : (newStream s).turns = s.turns := rfl
@[simp] theorem newStream_sink (s : State) : (newStream s).sink = s.sink := rfl
@[simp] theorem newStream_bench (s : State) : (newStream s).bench = s.bench := rfl

/-! ### latchDescriptor -/

@[simp] theorem latchDescriptor_mode (w h : BitVec 32) (ch : Byte) (cs : BitVec 1) (s : State) : (latchDescriptor w h ch cs s).mode = s.mode := rfl
@[simp] theorem latchDescriptor_err (w h : BitVec 32) (ch : Byte) (cs : BitVec 1) (s : State) : (latchDescriptor w h ch cs s).err = s.err := rfl
@[simp] theorem latchDescriptor_descW (w h : BitVec 32) (ch : Byte) (cs : BitVec 1) (s : State) : (latchDescriptor w h ch cs s).descW = w := rfl
@[simp] theorem latchDescriptor_descH (w h : BitVec 32) (ch : Byte) (cs : BitVec 1) (s : State) : (latchDescriptor w h ch cs s).descH = h := rfl
@[simp] theorem latchDescriptor_descCh (w h : BitVec 32) (ch : Byte) (cs : BitVec 1) (s : State) : (latchDescriptor w h ch cs s).descCh = ch := rfl
@[simp] theorem latchDescriptor_descCs (w h : BitVec 32) (ch : Byte) (cs : BitVec 1) (s : State) : (latchDescriptor w h ch cs s).descCs = cs := rfl
@[simp] theorem latchDescriptor_pixRemain (w h : BitVec 32) (ch : Byte) (cs : BitVec 1) (s : State) : (latchDescriptor w h ch cs s).pixRemain = s.pixRemain := rfl
@[simp] theorem latchDescriptor_outCount (w h : BitVec 32) (ch : Byte) (cs : BitVec 1) (s : State) : (latchDescriptor w h ch cs s).outCount = s.outCount := rfl
@[simp] theorem latchDescriptor_prev (w h : BitVec 32) (ch : Byte) (cs : BitVec 1) (s : State) : (latchDescriptor w h ch cs s).prev = s.prev := rfl
@[simp] theorem latchDescriptor_run (w h : BitVec 32) (ch : Byte) (cs : BitVec 1) (s : State) : (latchDescriptor w h ch cs s).run = s.run := rfl
@[simp] theorem latchDescriptor_cache (w h : BitVec 32) (ch : Byte) (cs : BitVec 1) (s : State) : (latchDescriptor w h ch cs s).cache = s.cache := rfl
@[simp] theorem latchDescriptor_out (w h : BitVec 32) (ch : Byte) (cs : BitVec 1) (s : State) : (latchDescriptor w h ch cs s).out = s.out := rfl
@[simp] theorem latchDescriptor_sent (w h : BitVec 32) (ch : Byte) (cs : BitVec 1) (s : State) : (latchDescriptor w h ch cs s).sent = s.sent := rfl
@[simp] theorem latchDescriptor_cacheInit (w h : BitVec 32) (ch : Byte) (cs : BitVec 1) (s : State) : (latchDescriptor w h ch cs s).cacheInit = s.cacheInit := rfl
@[simp] theorem latchDescriptor_cfgOffers (w h : BitVec 32) (ch : Byte) (cs : BitVec 1) (s : State) : (latchDescriptor w h ch cs s).cfgOffers = s.cfgOffers := rfl
@[simp] theorem latchDescriptor_pixOffers (w h : BitVec 32) (ch : Byte) (cs : BitVec 1) (s : State) : (latchDescriptor w h ch cs s).pixOffers = s.pixOffers := rfl
@[simp] theorem latchDescriptor_outOffers (w h : BitVec 32) (ch : Byte) (cs : BitVec 1) (s : State) : (latchDescriptor w h ch cs s).outOffers = s.outOffers := rfl
@[simp] theorem latchDescriptor_turns (w h : BitVec 32) (ch : Byte) (cs : BitVec 1) (s : State) : (latchDescriptor w h ch cs s).turns = s.turns := rfl
@[simp] theorem latchDescriptor_sink (w h : BitVec 32) (ch : Byte) (cs : BitVec 1) (s : State) : (latchDescriptor w h ch cs s).sink = s.sink := rfl
@[simp] theorem latchDescriptor_bench (w h : BitVec 32) (ch : Byte) (cs : BitVec 1) (s : State) : (latchDescriptor w h ch cs s).bench = s.bench := rfl

/-! ### initEncoderState -/

@[simp] theorem initEncoderState_mode (w h : BitVec 32) (s : State) : (initEncoderState w h s).mode = s.mode := rfl
@[simp] theorem initEncoderState_err (w h : BitVec 32) (s : State) : (initEncoderState w h s).err = s.err := rfl
@[simp] theorem initEncoderState_descW (w h : BitVec 32) (s : State) : (initEncoderState w h s).descW = s.descW := rfl
@[simp] theorem initEncoderState_descH (w h : BitVec 32) (s : State) : (initEncoderState w h s).descH = s.descH := rfl
@[simp] theorem initEncoderState_descCh (w h : BitVec 32) (s : State) : (initEncoderState w h s).descCh = s.descCh := rfl
@[simp] theorem initEncoderState_descCs (w h : BitVec 32) (s : State) : (initEncoderState w h s).descCs = s.descCs := rfl
@[simp] theorem initEncoderState_pixRemain (w h : BitVec 32) (s : State) : (initEncoderState w h s).pixRemain = pixelCount w h := rfl
@[simp] theorem initEncoderState_outCount (w h : BitVec 32) (s : State) : (initEncoderState w h s).outCount = s.outCount := rfl
@[simp] theorem initEncoderState_prev (w h : BitVec 32) (s : State) : (initEncoderState w h s).prev = initialPrev := rfl
@[simp] theorem initEncoderState_run (w h : BitVec 32) (s : State) : (initEncoderState w h s).run = 0 := rfl
@[simp] theorem initEncoderState_cache (w h : BitVec 32) (s : State) : (initEncoderState w h s).cache = [] := rfl
@[simp] theorem initEncoderState_out (w h : BitVec 32) (s : State) : (initEncoderState w h s).out = s.out := rfl
@[simp] theorem initEncoderState_sent (w h : BitVec 32) (s : State) : (initEncoderState w h s).sent = s.sent := rfl
@[simp] theorem initEncoderState_cacheInit (w h : BitVec 32) (s : State) : (initEncoderState w h s).cacheInit = s.cacheInit := rfl
@[simp] theorem initEncoderState_cfgOffers (w h : BitVec 32) (s : State) : (initEncoderState w h s).cfgOffers = s.cfgOffers := rfl
@[simp] theorem initEncoderState_pixOffers (w h : BitVec 32) (s : State) : (initEncoderState w h s).pixOffers = s.pixOffers := rfl
@[simp] theorem initEncoderState_outOffers (w h : BitVec 32) (s : State) : (initEncoderState w h s).outOffers = s.outOffers := rfl
@[simp] theorem initEncoderState_turns (w h : BitVec 32) (s : State) : (initEncoderState w h s).turns = s.turns := rfl
@[simp] theorem initEncoderState_sink (w h : BitVec 32) (s : State) : (initEncoderState w h s).sink = s.sink := rfl
@[simp] theorem initEncoderState_bench (w h : BitVec 32) (s : State) : (initEncoderState w h s).bench = s.bench := rfl

/-! ### transferByte -/

@[simp] theorem transferByte_mode (s : State) : (transferByte s).mode = s.mode := rfl
@[simp] theorem transferByte_err (s : State) : (transferByte s).err = s.err := rfl
@[simp] theorem transferByte_descW (s : State) : (transferByte s).descW = s.descW := rfl
@[simp] theorem transferByte_descH (s : State) : (transferByte s).descH = s.descH := rfl
@[simp] theorem transferByte_descCh (s : State) : (transferByte s).descCh = s.descCh := rfl
@[simp] theorem transferByte_descCs (s : State) : (transferByte s).descCs = s.descCs := rfl
@[simp] theorem transferByte_pixRemain (s : State) : (transferByte s).pixRemain = s.pixRemain := rfl
@[simp] theorem transferByte_outCount (s : State) : (transferByte s).outCount = s.outCount := rfl
@[simp] theorem transferByte_prev (s : State) : (transferByte s).prev = s.prev := rfl
@[simp] theorem transferByte_run (s : State) : (transferByte s).run = s.run := rfl
@[simp] theorem transferByte_cache (s : State) : (transferByte s).cache = s.cache := rfl
@[simp] theorem transferByte_out (s : State) : (transferByte s).out = s.out := rfl
@[simp] theorem transferByte_sent (s : State) : (transferByte s).sent = s.sent + 1 := rfl
@[simp] theorem transferByte_cacheInit (s : State) : (transferByte s).cacheInit = s.cacheInit := rfl
@[simp] theorem transferByte_cfgOffers (s : State) : (transferByte s).cfgOffers = s.cfgOffers := rfl
@[simp] theorem transferByte_pixOffers (s : State) : (transferByte s).pixOffers = s.pixOffers := rfl
@[simp] theorem transferByte_outOffers (s : State) : (transferByte s).outOffers = s.outOffers := rfl
@[simp] theorem transferByte_turns (s : State) : (transferByte s).turns = s.turns := rfl
@[simp] theorem transferByte_sink (s : State) : (transferByte s).sink = s.sink ++ [⟨outByte s, outLast s⟩] := rfl
@[simp] theorem transferByte_bench (s : State) : (transferByte s).bench = s.bench := rfl

/-! ### passTurn -/

@[simp] theorem passTurn_mode (s : State) : (passTurn s).mode = s.mode := rfl
@[simp] theorem passTurn_err (s : State) : (passTurn s).err = s.err := rfl
@[simp] theorem passTurn_descW (s : State) : (passTurn s).descW = s.descW := rfl
@[simp] theorem passTurn_descH (s : State) : (passTurn s).descH = s.descH := rfl
@[simp] theorem passTurn_descCh (s : State) : (passTurn s).descCh = s.descCh := rfl
@[simp] theorem passTurn_descCs (s : State) : (passTurn s).descCs = s.descCs := rfl
@[simp] theorem passTurn_pixRemain (s : State) : (passTurn s).pixRemain = s.pixRemain := rfl
@[simp] theorem passTurn_outCount (s : State) : (passTurn s).outCount = s.outCount := rfl
@[simp] theorem passTurn_prev (s : State) : (passTurn s).prev = s.prev := rfl
@[simp] theorem passTurn_run (s : State) : (passTurn s).run = s.run := rfl
@[simp] theorem passTurn_cache (s : State) : (passTurn s).cache = s.cache := rfl
@[simp] theorem passTurn_out (s : State) : (passTurn s).out = s.out := rfl
@[simp] theorem passTurn_sent (s : State) : (passTurn s).sent = s.sent := rfl
@[simp] theorem passTurn_cacheInit (s : State) : (passTurn s).cacheInit = s.cacheInit := rfl
@[simp] theorem passTurn_cfgOffers (s : State) : (passTurn s).cfgOffers = s.cfgOffers := rfl
@[simp] theorem passTurn_pixOffers (s : State) : (passTurn s).pixOffers = s.pixOffers := rfl
@[simp] theorem passTurn_outOffers (s : State) : (passTurn s).outOffers = s.outOffers := rfl
@[simp] theorem passTurn_turns (s : State) : (passTurn s).turns = s.turns.tail := rfl
@[simp] theorem passTurn_sink (s : State) : (passTurn s).sink = s.sink := rfl
@[simp] theorem passTurn_bench (s : State) : (passTurn s).bench = s.bench := rfl

end Sys2Proof.Machine
end

