-- ==== Sys2Proof/Laws/Cache.lean ====
section
/-! SUPPORT. The laws of the cache's list: a slot reads what was last written to it, every other slot is unchanged,
and every operation keeps the canonical form. -/

namespace Sys2Proof.Machine

theorem Memory.find_insert_same (h : Nat) (p : Pixel) (m : Memory) : Memory.find (Memory.insert h p m) h = some p := by
  induction m with
  | nil => simp [Memory.insert, Memory.find]
  | cons c m ih =>
    obtain ⟨k, q⟩ := c
    by_cases h1 : h < k
    · simp [Memory.insert, h1, Memory.find]
    · by_cases h2 : h = k
      · simp [Memory.insert, h2, Memory.find]
      · simp [Memory.insert, h1, h2, Memory.find, Ne.symm h2, ih]

theorem Memory.find_insert_other {h j : Nat} (hj : j ≠ h) (p : Pixel) (m : Memory) :
    Memory.find (Memory.insert h p m) j = Memory.find m j := by
  induction m with
  | nil => simp [Memory.insert, Memory.find, Ne.symm hj]
  | cons c m ih =>
    obtain ⟨k, q⟩ := c
    by_cases h1 : h < k
    · simp [Memory.insert, h1, Memory.find, Ne.symm hj]
    · by_cases h2 : h = k
      · subst h2; simp [Memory.insert, Memory.find, Ne.symm hj]
      · simp [Memory.insert, h1, h2, Memory.find, ih]

theorem Memory.find_erase_other {h j : Nat} (hj : j ≠ h) (m : Memory) :
    Memory.find (Memory.erase h m) j = Memory.find m j := by
  induction m with
  | nil => rfl
  | cons c m ih =>
    obtain ⟨k, q⟩ := c
    by_cases hk : k = h
    · subst hk; simp [Memory.erase, Memory.find, Ne.symm hj]
    · simp [Memory.erase, hk, Memory.find, ih]

/-- What the canonical form says of a list with a first cell. -/
theorem Memory.wfFrom_cons {ci : CacheInit} {lo k : Nat} {q : Pixel} {m : Memory} :
    Memory.wfFrom ci lo ((k, q) :: m) = true ↔
      lo ≤ k ∧ k < cacheSlots ∧ Memory.unlisted ci ≠ some q ∧ Memory.wfFrom ci (k + 1) m = true := by
  simp [Memory.wfFrom, and_assoc]

/-- The canonical form from a higher index on is the canonical form from a lower one. -/
theorem Memory.wfFrom_mono {ci : CacheInit} {lo lo' : Nat} {m : Memory} (hl : lo' ≤ lo)
    (hm : Memory.wfFrom ci lo m = true) : Memory.wfFrom ci lo' m = true := by
  cases m with
  | nil => rfl
  | cons c m =>
    obtain ⟨k, q⟩ := c
    rw [Memory.wfFrom_cons] at hm ⊢
    exact ⟨by omega, hm.2⟩

/-- A canonical list from `lo` on lists nothing below `lo`. -/
theorem Memory.find_below {ci : CacheInit} {lo h : Nat} {m : Memory} (hm : Memory.wfFrom ci lo m = true) (hh : h < lo) :
    Memory.find m h = none := by
  induction m generalizing lo with
  | nil => rfl
  | cons c m ih =>
    obtain ⟨k, q⟩ := c
    rw [Memory.wfFrom_cons] at hm
    have hk : k ≠ h := by omega
    simp only [Memory.find, hk, if_false]
    exact ih hm.2.2.2 (by omega)

theorem Memory.find_erase_same {ci : CacheInit} {lo h : Nat} {m : Memory} (hm : Memory.wfFrom ci lo m = true) :
    Memory.find (Memory.erase h m) h = none := by
  induction m generalizing lo with
  | nil => rfl
  | cons c m ih =>
    obtain ⟨k, q⟩ := c
    rw [Memory.wfFrom_cons] at hm
    by_cases hk : k = h
    · subst hk
      simp only [Memory.erase, if_true]
      exact Memory.find_below hm.2.2.2 (by omega)
    · simp only [Memory.erase, hk, if_false, Memory.find]
      exact ih hm.2.2.2

theorem Memory.insert_wfFrom {ci : CacheInit} {lo h : Nat} {p : Pixel} {m : Memory} (hm : Memory.wfFrom ci lo m = true)
    (hl : lo ≤ h) (hh : h < cacheSlots) (hp : Memory.unlisted ci ≠ some p) :
    Memory.wfFrom ci lo (Memory.insert h p m) = true := by
  induction m generalizing lo with
  | nil => exact Memory.wfFrom_cons.2 ⟨hl, hh, hp, rfl⟩
  | cons c m ih =>
    obtain ⟨k, q⟩ := c
    have hc := Memory.wfFrom_cons.1 hm
    by_cases h1 : h < k
    · simp only [Memory.insert, h1, if_true]
      exact Memory.wfFrom_cons.2 ⟨hl, hh, hp, Memory.wfFrom_cons.2 ⟨by omega, hc.2⟩⟩
    · by_cases h2 : h = k
      · subst h2
        simp only [Memory.insert, Nat.lt_irrefl, if_true, if_false]
        exact Memory.wfFrom_cons.2 ⟨hc.1, hc.2.1, hp, hc.2.2.2⟩
      · simp only [Memory.insert, h1, h2, if_false]
        exact Memory.wfFrom_cons.2 ⟨hc.1, hc.2.1, hc.2.2.1, ih hc.2.2.2 (by omega)⟩

theorem Memory.erase_wfFrom {ci : CacheInit} {lo h : Nat} {m : Memory} (hm : Memory.wfFrom ci lo m = true) :
    Memory.wfFrom ci lo (Memory.erase h m) = true := by
  induction m generalizing lo with
  | nil => rfl
  | cons c m ih =>
    obtain ⟨k, q⟩ := c
    have hc := Memory.wfFrom_cons.1 hm
    by_cases hk : k = h
    · simp only [Memory.erase, hk, if_true]
      exact Memory.wfFrom_mono (by omega) hc.2.2.2
    · simp only [Memory.erase, hk, if_false]
      exact Memory.wfFrom_cons.2 ⟨hc.1, hc.2.1, hc.2.2.1, ih hc.2.2.2⟩

/-- Every write keeps the canonical form. -/
theorem Memory.write_wf {ci : CacheInit} {h : Nat} {p : Pixel} {m : Memory} (hm : Memory.wf ci m = true)
    (hh : h < cacheSlots) : Memory.wf ci (Memory.write ci h p m) = true := by
  unfold Memory.write
  split
  · exact Memory.erase_wfFrom hm
  · exact Memory.insert_wfFrom hm (Nat.zero_le h) hh ‹_›

/-- A slot reads what was last stored in it. -/
theorem Memory.read_write_same {ci : CacheInit} {h : Nat} {p : Pixel} {m : Memory} (hm : Memory.wf ci m = true) :
    Memory.read ci (Memory.write ci h p m) h = some p := by
  unfold Memory.write
  split
  · simp [Memory.read, Memory.find_erase_same (ci := ci) hm, *]
  · simp [Memory.read, Memory.find_insert_same]

/-- "every other slot unchanged" (41_color_cache.md R123). -/
theorem Memory.read_write_other {ci : CacheInit} {h j : Nat} (hj : j ≠ h) (p : Pixel) (m : Memory) :
    Memory.read ci (Memory.write ci h p m) j = Memory.read ci m j := by
  unfold Memory.write
  split
  · simp [Memory.read, Memory.find_erase_other hj]
  · simp [Memory.read, Memory.find_insert_other hj]

@[simp] theorem Memory.read_nil (ci : CacheInit) (h : Nat) : Memory.read ci [] h = Memory.unlisted ci := rfl

@[simp] theorem Memory.wf_nil (ci : CacheInit) : Memory.wf ci [] = true := rfl

/-- A 6-bit index names one of the 64 slots (20_memory.md R50). -/
theorem slot_lt (h : BitVec 6) : h.toNat < cacheSlots := h.isLt

/-- Different 6-bit indices are different slots. -/
theorem slot_ne {h j : BitVec 6} (hj : j ≠ h) : j.toNat ≠ h.toNat := fun e => hj (BitVec.eq_of_toNat_eq e)

theorem probe_store_same {s : State} (hm : Memory.wf s.cacheInit s.cache = true) (h : BitVec 6) (p : Pixel) :
    probe h (store h p s) = some p := Memory.read_write_same hm

theorem probe_store_other {h j : BitVec 6} (hj : j ≠ h) (p : Pixel) (s : State) :
    probe j (store h p s) = probe j s := Memory.read_write_other (slot_ne hj) p s.cache

theorem store_wf {s : State} (hm : Memory.wf s.cacheInit s.cache = true) (h : BitVec 6) (p : Pixel) :
    Memory.wf (store h p s).cacheInit (store h p s).cache = true := Memory.write_wf hm (slot_lt h)

/-! ## Writing what a slot already reads -/

theorem Memory.insert_of_find {ci : CacheInit} {lo h : Nat} {p : Pixel} {m : Memory} (hm : Memory.wfFrom ci lo m = true)
    (hf : Memory.find m h = some p) : Memory.insert h p m = m := by
  induction m generalizing lo with
  | nil => simp [Memory.find] at hf
  | cons c m ih =>
    obtain ⟨k, q⟩ := c
    have hc := Memory.wfFrom_cons.1 hm
    by_cases hk : k = h
    · subst hk
      simp only [Memory.find, if_true, Option.some.injEq] at hf
      simp [Memory.insert, hf]
    · simp only [Memory.find, hk, if_false] at hf
      have hlt : ¬ h < k + 1 := fun hlt => by simp [Memory.find_below hc.2.2.2 hlt] at hf
      simp only [Memory.insert]
      rw [if_neg (by omega), if_neg (by omega), ih hc.2.2.2 hf]

theorem Memory.erase_of_find_none {ci : CacheInit} {lo h : Nat} {m : Memory} (hm : Memory.wfFrom ci lo m = true)
    (hf : Memory.find m h = none) : Memory.erase h m = m := by
  induction m generalizing lo with
  | nil => rfl
  | cons c m ih =>
    obtain ⟨k, q⟩ := c
    have hc := Memory.wfFrom_cons.1 hm
    by_cases hk : k = h
    · simp [Memory.find, hk] at hf
    · simp only [Memory.find, hk, if_false] at hf
      simp [Memory.erase, hk, ih hc.2.2.2 hf]

/-- A listed pixel is not what an unlisted slot reads as. -/
theorem Memory.unlisted_ne_of_find {ci : CacheInit} {lo h : Nat} {p : Pixel} {m : Memory}
    (hm : Memory.wfFrom ci lo m = true) (hf : Memory.find m h = some p) : Memory.unlisted ci ≠ some p := by
  induction m generalizing lo with
  | nil => simp [Memory.find] at hf
  | cons c m ih =>
    obtain ⟨k, q⟩ := c
    have hc := Memory.wfFrom_cons.1 hm
    by_cases hk : k = h
    · simp only [Memory.find, hk, if_true, Option.some.injEq] at hf
      exact hf ▸ hc.2.2.1
    · simp only [Memory.find, hk, if_false] at hf
      exact ih hc.2.2.2 hf

/-- Storing what the slot already holds changes nothing: equal caches are equal lists. -/
theorem Memory.write_of_read {ci : CacheInit} {h : Nat} {p : Pixel} {m : Memory} (hm : Memory.wf ci m = true)
    (hr : Memory.read ci m h = some p) : Memory.write ci h p m = m := by
  unfold Memory.read at hr
  unfold Memory.write
  split at hr
  · rename_i q hq
    simp only [Option.some.injEq] at hr
    subst hr
    rw [if_neg (Memory.unlisted_ne_of_find hm hq)]
    exact Memory.insert_of_find hm hq
  · rw [if_pos hr]
    exact Memory.erase_of_find_none hm ‹_›

end Sys2Proof.Machine
end

