-- ==== Sys2Proof/Laws/Ops.lean ====
section
/-! SUPPORT. One closed form per shared operation: everything it does, said once. -/

namespace Sys2Proof.Machine

/-! ## Emission -/

/-- Emitting a list appends it to OUT and counts its bytes; nothing else changes (00_scope.md R9). -/
theorem emitAll_eq (bs : List Byte) (s : State) :
    emitAll bs s = { s with out := s.out ++ bs, outCount := s.outCount + BitVec.ofNat 64 bs.length } := by
  induction bs generalizing s with
  | nil => simp [emitAll]
  | cons b bs ih =>
    simp only [emitAll, ih, emit, List.append_assoc, List.singleton_append, List.length_cons, BitVec.ofNat_add]
    congr 1
    ac_rfl

theorem emit_eq_emitAll (b : Byte) (s : State) : emit b s = emitAll [b] s := rfl

theorem emitAll_append (as bs : List Byte) (s : State) : emitAll (as ++ bs) s = emitAll bs (emitAll as s) := by
  induction as generalizing s with
  | nil => rfl
  | cons a as ih => exact ih (emit a s)

/-- The header serializer's calls emit the 14 bytes of 30_encoding.md R71. -/
theorem emitHeader_eq (w h : BitVec 32) (ch : Byte) (cs : BitVec 1) (s : State) :
    emitHeader w h ch cs s = emitAll (headerBytes w h ch cs) s := by
  have hcs : ∀ x : BitVec 1, colorSpaceByte x = (0#7 ++ x : BitVec 8) := by decide
  simp only [emitHeader, headerBytes, emitAll_append, hcs]
  rfl

theorem headerBytes_length (w h : BitVec 32) (ch : Byte) (cs : BitVec 1) : (headerBytes w h ch cs).length = 14 := rfl

/-! ## The tokens' bytes are their encodings -/

theorem emitIndex_eq (idx : BitVec 6) (s : State) : emitIndex idx s = emitAll (unitBytes (.opIndex idx)) s := by
  have h : ∀ x : BitVec 6, (0x00 ||| x.setWidth 8 : BitVec 8) = (0b00#2 ++ x : BitVec 8) := by decide
  simp only [emitIndex, h]
  rfl

theorem emitDiff_eq (r g b : BitVec 2) (s : State) : emitDiff r g b s = emitAll (unitBytes (.opDiff r g b)) s := by
  have h : ∀ r g b : BitVec 2, (0x40 ||| (r.setWidth 8 <<< 4) ||| (g.setWidth 8 <<< 2) ||| b.setWidth 8 : BitVec 8)
      = (0b01#2 ++ r ++ g ++ b : BitVec 8) := by decide
  simp only [emitDiff, h]
  rfl

theorem emitLuma_eq (g : BitVec 6) (r b : BitVec 4) (s : State) :
    emitLuma g r b s = emitAll (unitBytes (.opLuma g r b)) s := by
  have h0 : ∀ x : BitVec 6, (0x80 ||| x.setWidth 8 : BitVec 8) = (0b10#2 ++ x : BitVec 8) := by decide
  have h1 : ∀ x y : BitVec 4, ((x.setWidth 8 <<< 4) ||| y.setWidth 8 : BitVec 8) = (x ++ y : BitVec 8) := by decide
  simp only [emitLuma, h0, h1]
  rfl

theorem emitRun_eq (l : BitVec 6) (s : State) :
    emitRun l s = { emitAll (unitBytes (.opRun l)) s with run := 0 } := by
  have h : ∀ x : BitVec 6, (0xC0 ||| x.setWidth 8 : BitVec 8) = (0b11#2 ++ x : BitVec 8) := by decide
  simp only [emitRun, h]
  rfl

theorem emitRgb_eq (r g b : Byte) (s : State) : emitRgb r g b s = emitAll (unitBytes (.opRgb r g b)) s := rfl

theorem emitRgba_eq (r g b a : Byte) (s : State) : emitRgba r g b a s = emitAll (unitBytes (.opRgba r g b a)) s := rfl

theorem finish_eq (s : State) : finish s = { emitAll (unitBytes .endMarker) s with mode := .done } := rfl

/-! ## Error entry -/

/-- Error entry where SENT ≤ |OUT| (60_exceptions.md R215). -/
theorem raise_eq_afterError {s : State} (hs : s.sent ≤ s.out.length) (e : Err) : raise e s = afterError e s := by
  simp only [raise, afterError, List.length_take, Nat.min_eq_left hs]

/-! ## The pixel step -/

/-- The run selector's `same` is equality of pixels (42_pixel_selector.md R143, 00_scope.md R8). -/
theorem same_iff (p q : Pixel) : same p q = true ↔ p = q := by
  cases p; cases q
  simp [same, and_assoc]

theorem alphaSame_iff (p q : Pixel) : alphaSame p q = true ↔ p.a = q.a := by simp [alphaSame]

theorem hit_iff (p : Pixel) (s : State) : hit p s = true ↔ probe (hashOf p) s = some p := by simp [hit]

/-- The token of a miss, as an instruction (42_pixel_selector.md R146). -/
def missToken (p prev : Pixel) : Instr :=
  if alphaSame p prev then
    if smallDiff (deltas p prev) then
      .opDiff (biased 2 2 (deltas p prev).dr) (biased 2 2 (deltas p prev).dg) (biased 2 2 (deltas p prev).db)
    else if luma (deltas p prev) then
      .opLuma (biased 6 32 (deltas p prev).dg) (biased 4 8 ((deltas p prev).dr - (deltas p prev).dg))
        (biased 4 8 ((deltas p prev).db - (deltas p prev).dg))
    else .opRgb p.r p.g p.b
  else .opRgba p.r p.g p.b p.a

theorem emitMiss_eq (p prev : Pixel) (s : State) : emitMiss p prev s = emitAll (unitBytes (missToken p prev)) s := by
  unfold emitMiss missToken
  dsimp only
  split
  · split
    · exact emitDiff_eq ..
    · split
      · exact emitLuma_eq ..
      · rfl
  · rfl

theorem missToken_isToken (p prev : Pixel) : (missToken p prev).isToken = true := by
  unfold missToken; repeat' split
  all_goals rfl

theorem missToken_wellFormed (p prev : Pixel) : (missToken p prev).wellFormed = true := by
  unfold missToken; repeat' split
  all_goals rfl

/-- The token of a pixel that joins no run (42_pixel_selector.md R146). -/
def ownToken (p : Pixel) (s : State) : Instr := if hit p s then .opIndex (hashOf p) else missToken p s.prev

/-- The cache after a pixel that joins no run: written on a miss only (41_color_cache.md R127). -/
def ownCache (p : Pixel) (s : State) : Memory :=
  if hit p s then s.cache else Memory.write s.cacheInit (hashOf p).toNat p s.cache

theorem encodePixel_eq (p : Pixel) (s : State) :
    encodePixel p s = emitAll (unitBytes (ownToken p s)) { s with cache := ownCache p s } := by
  unfold encodePixel ownToken ownCache
  split
  · exact emitIndex_eq ..
  · exact emitMiss_eq ..

/-- The pending run's token, if a run is pending (42_pixel_selector.md R145). -/
def pendingRunTokens (s : State) : List Instr := if s.run = 0 then [] else [.opRun (s.run - 1)]

/-- The hit test reads CACHE and CACHE_INIT only. -/
theorem hit_congr {p : Pixel} {s t : State} (hc : t.cache = s.cache) (hi : t.cacheInit = s.cacheInit) :
    hit p t = hit p s := by
  unfold hit probe; rw [hc, hi]

/-- The pixel's own token depends on CACHE, CACHE_INIT and PREV only. -/
theorem ownToken_congr {p : Pixel} {s t : State} (hc : t.cache = s.cache) (hi : t.cacheInit = s.cacheInit)
    (hp : t.prev = s.prev) : ownToken p t = ownToken p s := by
  unfold ownToken; rw [hit_congr hc hi, hp]

theorem ownCache_congr {p : Pixel} {s t : State} (hc : t.cache = s.cache) (hi : t.cacheInit = s.cacheInit) :
    ownCache p t = ownCache p s := by
  unfold ownCache; rw [hit_congr hc hi, hc, hi]

/-- PIX_REMAIN reaches 0 exactly from 1 (42_pixel_selector.md R148). -/
theorem last_iff (n : BitVec 64) : n - 1#64 = 0#64 ↔ n = 1#64 := by
  constructor
  · intro h; bv_omega
  · rintro rfl; rfl

/-- What a PIXEL step leaves for a pixel that joins no run: the pending run's token, the pixel's own, the end marker
after the last pixel (42_pixel_selector.md R145-R148). -/
theorem pixelStep_own {p : Pixel} {s : State} (hp : p ≠ s.prev) :
    pixelStep p s = afterPixel p
      ((pendingRunTokens s).flatMap unitBytes ++ unitBytes (ownToken p s) ++ lastPixelBytes s) 0 (ownCache p s) s := by
  have hs : same p s.prev = false := by
    rw [← Bool.not_eq_true, same_iff]; exact hp
  have ht : ∀ a b c d, ownToken p { s with pixRemain := a, run := b, out := c, outCount := d } = ownToken p s :=
    fun _ _ _ _ => ownToken_congr rfl rfl rfl
  have hc : ∀ a b c d, ownCache p { s with pixRemain := a, run := b, out := c, outCount := d } = ownCache p s :=
    fun _ _ _ _ => ownCache_congr rfl rfl
  have hl := last_iff s.pixRemain
  by_cases hr : s.run = 0#6 <;> by_cases h1 : s.pixRemain = 1#64 <;>
    simp [pixelStep, hs, endRun, hr, encodePixel_eq, flushRun, emitRun_eq, emitAll_eq, finish, afterPixel,
      pendingRunTokens, lastPixelBytes, h1, hl, endMarkerBytes, BitVec.ofNat_add, BitVec.add_assoc, ht, hc]

/-- What a PIXEL step leaves for a pixel that joins the run (42_pixel_selector.md R144). -/
theorem pixelStep_join {p : Pixel} {s : State} (hp : p = s.prev) :
    pixelStep p s =
      if s.run + 1 = runMax ∨ s.pixRemain = 1 then
        afterPixel p (unitBytes (.opRun s.run) ++ lastPixelBytes s) 0 s.cache s
      else afterPixel p [] (s.run + 1) s.cache s := by
  have hs : same p s.prev = true := (same_iff ..).2 hp
  have hl := last_iff s.pixRemain
  have hq : s.run + 1#6 = 62#6 ↔ s.run = 61#6 := by
    constructor
    · intro h; bv_omega
    · intro h; rw [h]; rfl
  by_cases h1 : s.pixRemain = 1#64 <;> by_cases h2 : s.run = 61#6 <;>
    simp [pixelStep, hs, joinRun, flushRun, emitRun_eq, emitAll_eq, finish, afterPixel, lastPixelBytes, h1, h2, hl, hq,
      endMarkerBytes, BitVec.ofNat_add, BitVec.add_assoc]

end Sys2Proof.Machine
end

