-- ==== Sys2Proof/Laws/Fields.lean ====
section
/-! SUPPORT. The arithmetic of operands and payload fields, said once. -/

namespace Sys2Proof.Machine

/-- A byte wrapped and read as two's complement stays in [-128, 127] and congruent modulo 256 (00_scope.md R8). -/
theorem sext8_wrap8_spec (x : Int) :
    -128 ≤ sext8 (wrap8 x) ∧ sext8 (wrap8 x) ≤ 127 ∧ (sext8 (wrap8 x) - x) % 256 = 0 := by
  unfold sext8 wrap8
  rw [BitVec.toInt_ofInt]
  simp only [Int.bmod]
  split <;> omega

/-- What a delta is (43_opcode_serializer.md R160). -/
theorem delta_spec (c q : Byte) :
    -128 ≤ delta c q ∧ delta c q ≤ 127 ∧ (delta c q - ((c.toNat : Int) - (q.toNat : Int))) % 256 = 0 :=
  sext8_wrap8_spec _

/-- A decoder's wrapped addition undoes the delta (44_byte_packer_termination.md R197). -/
theorem wrap8_add_delta (c q : Byte) : wrap8 (q.toNat + delta c q) = c := by
  have hd := delta_spec c q
  have hc := c.isLt
  have hq := q.isLt
  apply BitVec.eq_of_toNat_eq
  simp [wrap8, BitVec.toNat_ofInt]
  omega

theorem smallDiff_iff (d : DeltaRgb) :
    smallDiff d = true ↔ (-2 ≤ d.dr ∧ d.dr ≤ 1) ∧ (-2 ≤ d.dg ∧ d.dg ≤ 1) ∧ (-2 ≤ d.db ∧ d.db ≤ 1) := by
  simp [smallDiff, and_assoc]

theorem luma_iff (d : DeltaRgb) :
    luma d = true ↔
      (-32 ≤ d.dg ∧ d.dg ≤ 31) ∧ (-8 ≤ d.dr - d.dg ∧ d.dr - d.dg ≤ 7) ∧ (-8 ≤ d.db - d.dg ∧ d.db - d.dg ≤ 7) := by
  simp only [luma, Bool.and_eq_true, decide_eq_true_eq, and_assoc]

/-- A value in range is its own unsigned field (30_encoding.md R75). -/
theorem toNat_ofInt_of_range {n : Nat} {x : Int} (h0 : 0 ≤ x) (h1 : x < 2 ^ n) :
    ((BitVec.ofInt n x).toNat : Int) = x := by
  obtain ⟨a, rfl⟩ := Int.eq_ofNat_of_zero_le h0
  have h : a < 2 ^ n := by exact_mod_cast h1
  simp only [BitVec.toNat_ofInt]
  rw [show ((a : Int) % ((2 ^ n : Nat) : Int)) = ((a % 2 ^ n : Nat) : Int) by simp, Int.toNat_natCast, Nat.mod_eq_of_lt h]

/-- The bytes of a big-endian word, by value (20_memory.md R52). -/
theorem be32_eq (v : BitVec 32) :
    be32 v = [BitVec.ofNat 8 (v.toNat / 2 ^ 24), BitVec.ofNat 8 (v.toNat / 2 ^ 16),
      BitVec.ofNat 8 (v.toNat / 2 ^ 8), BitVec.ofNat 8 v.toNat] := by
  simp [be32, BitVec.extractLsb', Nat.shiftRight_eq_div_pow]

theorem pixelCount_eq (w h : BitVec 32) : pixelCount w h = BitVec.ofNat 64 (w.toNat * h.toNat) := by
  apply BitVec.eq_of_toNat_eq
  simp [pixelCount, BitVec.toNat_mul]

/-- The 64-bit product of two 32-bit dimensions is exact (40_start_header.md R103). -/
theorem pixelCount_toNat (w h : BitVec 32) : (pixelCount w h).toNat = w.toNat * h.toNat := by
  have a := w.isLt
  have b := h.isLt
  rw [pixelCount_eq, BitVec.toNat_ofNat, Nat.mod_eq_of_lt]
  calc w.toNat * h.toNat ≤ w.toNat * 2 ^ 32 := Nat.mul_le_mul_left _ b.le
    _ < 2 ^ 32 * 2 ^ 32 := Nat.mul_lt_mul_of_pos_right a (by decide)
    _ = 2 ^ 64 := by norm_num

/-- "each > 0" makes the count positive (10_state.md R33). -/
theorem pixelCount_ne_zero {w h : BitVec 32} (hw : w ≠ 0) (hh : h ≠ 0) : pixelCount w h ≠ 0 := by
  intro e
  have hz : w.toNat * h.toNat = 0 := by rw [← pixelCount_toNat, e]; rfl
  rcases Nat.mul_eq_zero.1 hz with h0 | h0
  · exact hw (BitVec.eq_of_toNat_eq h0)
  · exact hh (BitVec.eq_of_toNat_eq h0)

theorem descriptorError_eq_none {w h : BitVec 32} {ch : Byte} :
    descriptorError w h ch = none ↔ ValidDescriptor w h ch := by
  unfold descriptorError ValidDescriptor
  split
  · grind
  · split <;> grind

theorem descriptorError_ne {w h : BitVec 32} {ch : Byte} {e : Err} (he : descriptorError w h ch = some e) :
    e ≠ .none := by
  unfold descriptorError at he
  split at he
  · cases he; decide
  · split at he
    · cases he; decide
    · cases he

/-- The byte of a run token, by value (43_opcode_serializer.md R164). -/
theorem unitBytes_opRun (l : BitVec 6) : unitBytes (.opRun l) = [BitVec.ofNat 8 (0xC0 + l.toNat)] := by
  revert l
  decide

/-! ## A token's pixel -/

/-- What the test decoder reads from a miss's token is the pixel (44_byte_packer_termination.md R197). -/
theorem tokenPixel_missToken (ci : CacheInit) (p prev : Pixel) (m : Memory) :
    tokenPixel ci prev m (missToken p prev) = some p := by
  have hr := wrap8_add_delta p.r prev.r
  have hg := wrap8_add_delta p.g prev.g
  have hb := wrap8_add_delta p.b prev.b
  unfold missToken
  split
  · rename_i ha
    rw [alphaSame_iff] at ha
    split
    · rename_i hs
      rw [smallDiff_iff] at hs
      simp only [deltas] at hs
      simp only [tokenPixel, biased, deltas]
      rw [toNat_ofInt_of_range (by omega) (by omega), toNat_ofInt_of_range (by omega) (by omega),
        toNat_ofInt_of_range (by omega) (by omega), ← ha]
      simp only [show ∀ a b : Int, a + (b + 2) - 2 = a + b by intros; omega, hr, hg, hb]
    · split
      · rename_i hl
        rw [luma_iff] at hl
        simp only [deltas] at hl
        simp only [tokenPixel, biased, deltas]
        rw [toNat_ofInt_of_range (by omega) (by omega), toNat_ofInt_of_range (by omega) (by omega),
          toNat_ofInt_of_range (by omega) (by omega), ← ha]
        simp only [show ∀ a b : Int, a + (b + 32 - 32) = a + b by intros; omega,
          show ∀ a b c : Int, a + b + (c - b + 8) - 8 = a + c by intros; omega, hr, hg, hb]
      · simp only [tokenPixel, ← ha]
  · rfl

theorem missToken_ne_opRun (p prev : Pixel) (l : BitVec 6) : missToken p prev ≠ .opRun l := by
  unfold missToken
  repeat' split
  all_goals simp

/-- A pixel's own token is never a run token. -/
theorem ownToken_ne_opRun (p : Pixel) (s : State) (l : BitVec 6) : ownToken p s ≠ .opRun l := by
  unfold ownToken
  split
  · simp
  · exact missToken_ne_opRun p s.prev l

theorem ownToken_isToken (p : Pixel) (s : State) : (ownToken p s).isToken = true := by
  unfold ownToken
  split
  · rfl
  · exact missToken_isToken ..

theorem ownToken_wellFormed (p : Pixel) (s : State) : (ownToken p s).wellFormed = true := by
  unfold ownToken
  split
  · rfl
  · exact missToken_wellFormed ..

/-- A token's length (30_encoding.md R74). -/
theorem unitBytes_length_of_isToken {i : Instr} (h : i.isToken = true) : (unitBytes i).length ∈ [1, 2, 4, 5] := by
  revert h
  cases i <;> simp [Instr.isToken, unitBytes, encode]

theorem tokenPixels_ownToken (p : Pixel) (s : State) : tokenPixels (ownToken p s) = 1 := by
  have h1 := ownToken_ne_opRun p s
  have h2 := ownToken_isToken p s
  revert h1 h2
  cases ownToken p s <;> simp [tokenPixels, Instr.isToken]

end Sys2Proof.Machine
end

