-- ==== Sys2Proof/Laws/Exec.lean ====
section
/-! SUPPORT. For each instruction, every next state it can answer; and the same for one step. Later proofs cite these
and unfold no meaning. -/

namespace Sys2Proof.Machine

/-! ## START -/

/-- What an accepted valid START leaves (40_start_header.md R100, R103). -/
def afterStart (w h : BitVec 32) (ch : Byte) (cs : BitVec 1) (s : State) : State :=
  { s with
    mode := .encoding
    err := .none
    descW := w
    descH := h
    descCh := ch
    descCs := cs
    pixRemain := pixelCount w h
    outCount := 14
    prev := initialPrev
    run := 0
    cache := []
    out := headerBytes w h ch cs
    sent := 0 }

/-- What a START that fails its checks leaves (40_start_header.md R100, 60_exceptions.md R215). -/
def afterBadStart (e : Err) (s : State) : State :=
  { s with mode := .error, err := e, pixRemain := 0, outCount := 0, run := 0, out := [], sent := 0 }

theorem cfgReady_iff (s : State) : cfgReady s = true ↔ s.mode ≠ .encoding ∧ s.sent = s.out.length := by
  simp [cfgReady]

theorem exec_start_valid {w h : BitVec 32} {ch : Byte} {s : State} (cs : BitVec 1) (hr : cfgReady s = true)
    (hv : ValidDescriptor w h ch) : exec (.start w h ch cs) s = .next (afterStart w h ch cs s) := by
  simp only [exec, execStart, hr, if_true, startEncode, descriptorError_eq_none.2 hv, emitHeader_eq, emitAll_eq]
  simp [initEncoderState, latchDescriptor, newStream, initCache, headerBytes_length, afterStart]

theorem exec_start_bad {w h : BitVec 32} {ch : Byte} {s : State} {e : Err} (cs : BitVec 1) (hr : cfgReady s = true)
    (he : descriptorError w h ch = some e) : exec (.start w h ch cs) s = .next (afterBadStart e s) := by
  simp only [exec, execStart, hr, if_true, startEncode, he]
  simp [raise, newStream, afterBadStart]

theorem exec_start_held {s : State} (w h : BitVec 32) (ch : Byte) (cs : BitVec 1) (hr : cfgReady s = false) :
    exec (.start w h ch cs) s = .next s := by
  simp [exec, execStart, hr]

/-- START is held, or begins an encode, or fails its checks. -/
theorem exec_start_cases {w h : BitVec 32} {ch : Byte} {cs : BitVec 1} {s t : State}
    (hx : exec (.start w h ch cs) s = .next t) :
    (cfgReady s = false ∧ t = s) ∨
    (cfgReady s = true ∧ ValidDescriptor w h ch ∧ t = afterStart w h ch cs s) ∨
    (cfgReady s = true ∧ ∃ e, descriptorError w h ch = some e ∧ t = afterBadStart e s) := by
  cases hr : cfgReady s
  · rw [exec_start_held w h ch cs hr] at hx
    cases hx
    exact .inl ⟨rfl, rfl⟩
  · cases he : descriptorError w h ch with
    | none =>
      have hv := descriptorError_eq_none.1 he
      rw [exec_start_valid cs hr hv] at hx
      cases hx
      exact .inr (.inl ⟨rfl, hv, rfl⟩)
    | some e =>
      rw [exec_start_bad cs hr he] at hx
      cases hx
      exact .inr (.inr ⟨rfl, e, rfl, rfl⟩)

/-- What an unlisted slot reads as is what CacheInit leaves (41_color_cache.md R125). -/
theorem initialSlot_iff {ci : CacheInit} {slot : Option Pixel} : InitialSlot ci slot ↔ slot = Memory.unlisted ci := by
  cases ci <;> simp [InitialSlot, Memory.unlisted, zeroPixel]

/-- The empty list is CacheInit's cache. -/
theorem allInitial_nil (ci : CacheInit) : AllInitial ci [] := fun _ => initialSlot_iff.2 rfl

/-! ## PIXEL -/

theorem exec_pixel_encoding {s : State} (r g b a : Byte) (hm : s.mode = .encoding) :
    exec (.pixel r g b a) s = .next (pixelStep (normalise s.descCh ⟨r, g, b, a⟩) s) := by
  simp [exec, execPixel, pixReady, hm]

theorem exec_pixel_held {s : State} (r g b a : Byte) (hm : s.mode ≠ .encoding) :
    exec (.pixel r g b a) s = .next s := by
  simp [exec, execPixel, pixReady, hm]

theorem exec_pixel_cases {r g b a : Byte} {s t : State} (hx : exec (.pixel r g b a) s = .next t) :
    (s.mode ≠ .encoding ∧ t = s) ∨
    (s.mode = .encoding ∧ t = pixelStep (normalise s.descCh ⟨r, g, b, a⟩) s) := by
  by_cases hm : s.mode = .encoding
  · rw [exec_pixel_encoding r g b a hm] at hx
    cases hx
    exact .inr ⟨hm, rfl⟩
  · rw [exec_pixel_held r g b a hm] at hx
    cases hx
    exact .inl ⟨hm, rfl⟩

/-- A PIXEL step writes OUT, OUT_COUNT, PIX_REMAIN, PREV, RUN, CACHE and MODE, and nothing else. -/
theorem pixelStep_after (p : Pixel) (s : State) :
    ∃ bytes run cache, pixelStep p s = afterPixel p bytes run cache s := by
  by_cases hp : p = s.prev
  · rw [pixelStep_join hp]
    split <;> exact ⟨_, _, _, rfl⟩
  · exact ⟨_, _, _, pixelStep_own hp⟩

/-- The pixel joins the run, or gets its own token; RUN stays at most 61 (10_state.md R42). -/
theorem pixelStep_cases {p : Pixel} {s : State} (hr : s.run.toNat ≤ 61) :
    (p = s.prev ∧ ∃ bytes run, pixelStep p s = afterPixel p (bytes ++ lastPixelBytes s) run s.cache s ∧
      run.toNat ≤ 61 ∧ (s.pixRemain = 1 → run = 0)) ∨
    (p ≠ s.prev ∧ pixelStep p s = afterPixel p
      ((pendingRunTokens s).flatMap unitBytes ++ unitBytes (ownToken p s) ++ lastPixelBytes s) 0 (ownCache p s) s) := by
  by_cases hp : p = s.prev
  · left
    refine ⟨hp, ?_⟩
    rw [pixelStep_join hp]
    split
    · exact ⟨_, _, rfl, by simp, by simp⟩
    · rename_i hn
      rw [not_or] at hn
      refine ⟨[], s.run + 1, ?_, ?_, fun h1 => absurd h1 hn.2⟩
      · rw [lastPixelBytes, if_neg hn.2]
        rfl
      · have hne : s.run + 1 ≠ 62#6 := hn.1
        bv_omega
  · exact .inr ⟨hp, pixelStep_own hp⟩

/-- On a miss: the token of the miss, and the pixel stored. -/
theorem own_of_miss {p : Pixel} {s : State} (hm : probe (hashOf p) s ≠ some p) :
    ownToken p s = missToken p s.prev ∧ ownCache p s = Memory.write s.cacheInit (hashOf p).toNat p s.cache := by
  have hf : hit p s = false := by rw [← Bool.not_eq_true, hit_iff]; exact hm
  simp [ownToken, ownCache, hf]

/-- On a hit: OP_INDEX, and the cache as it was. -/
theorem own_of_hit {p : Pixel} {s : State} (hh : probe (hashOf p) s = some p) :
    ownToken p s = .opIndex (hashOf p) ∧ ownCache p s = s.cache := by
  have ht : hit p s = true := (hit_iff ..).2 hh
  simp [ownToken, ownCache, ht]

theorem storedIn_write {p : Pixel} {s : State} (hw : Memory.wf s.cacheInit s.cache = true) :
    StoredIn p s (Memory.write s.cacheInit (hashOf p).toNat p s.cache) :=
  ⟨Memory.read_write_same hw, fun _ hh => Memory.read_write_other (slot_ne hh) p s.cache⟩

theorem ownCache_wf {p : Pixel} {s : State} (hw : Memory.wf s.cacheInit s.cache = true) :
    Memory.wf s.cacheInit (ownCache p s) = true := by
  unfold ownCache
  split
  · exact hw
  · exact Memory.write_wf hw (slot_lt _)

/-- After a pixel's own token its slot holds it, hit or miss. -/
theorem ownCache_read_same {p : Pixel} {s : State} (hw : Memory.wf s.cacheInit s.cache = true) :
    Memory.read s.cacheInit (ownCache p s) (hashOf p).toNat = some p := by
  unfold ownCache
  split
  · exact (hit_iff ..).1 ‹_›
  · exact Memory.read_write_same hw

theorem ownCache_read_other {p : Pixel} {s : State} {h : BitVec 6} (hh : h ≠ hashOf p) :
    Memory.read s.cacheInit (ownCache p s) h.toNat = probe h s := by
  unfold ownCache
  split
  · rfl
  · exact Memory.read_write_other (slot_ne hh) _ _

/-- The test decoder's cache after a pixel's own token is the encoder's (44_byte_packer_termination.md R197). -/
theorem ownCache_eq_write {p : Pixel} {s : State} (hw : Memory.wf s.cacheInit s.cache = true) :
    ownCache p s = Memory.write s.cacheInit (hashOf p).toNat p s.cache := by
  unfold ownCache
  split
  · exact (Memory.write_of_read hw ((hit_iff ..).1 ‹_›)).symm
  · rfl

theorem tokenPixel_ownToken (p : Pixel) (s : State) :
    tokenPixel s.cacheInit s.prev s.cache (ownToken p s) = some p := by
  unfold ownToken
  split
  · exact (hit_iff ..).1 ‹_›
  · exact tokenPixel_missToken ..

/-! ## DRAIN and SINKFAIL -/

theorem exec_drain_cases {s t : State} (hx : exec .drain s = .next t) :
    (outValid s = false ∧ t = s) ∨ (outValid s = true ∧ t = transferByte s) := by
  cases hv : outValid s <;> simp [exec, execDrain, hv] at hx <;> simp [hx]

theorem exec_sinkfail_cases {s t : State} (hx : exec .sinkfail s = .next t) :
    (sinkFailRaises s = false ∧ t = s) ∨ (sinkFailRaises s = true ∧ t = raise .sinkFailure s) := by
  cases hv : sinkFailRaises s <;> simp [exec, execSinkfail, hv] at hx <;> simp [hx]

/-! ## The output units -/

/-- An output unit leaves everything but OUT, OUT_COUNT, RUN and MODE, or is a HEADER that fails its checks. -/
theorem exec_unit_cases {i : Instr} {s t : State} (hc : i.isCommand = false) (hx : exec i s = .next t) :
    (t = { s with out := s.out ++ unitBytes i, outCount := s.outCount + BitVec.ofNat 64 (unitBytes i).length,
                  run := runAfterUnit i s, mode := modeAfterUnit i s }) ∨
    (∃ w h ch cs e, i = .header w h ch cs ∧ descriptorError w h ch = some e ∧ t = raise e s) := by
  cases i with
  | opIndex _ => cases hx; left; rw [emitIndex_eq, emitAll_eq]; rfl
  | opDiff _ _ _ => cases hx; left; rw [emitDiff_eq, emitAll_eq]; rfl
  | opLuma _ _ _ => cases hx; left; rw [emitLuma_eq, emitAll_eq]; rfl
  | opRun l =>
    simp only [exec, execOpRun] at hx
    split at hx
    · cases hx; left; rw [emitRun_eq, emitAll_eq]; rfl
    · cases hx
  | opRgb _ _ _ => cases hx; left; rw [emitRgb_eq, emitAll_eq]; rfl
  | opRgba _ _ _ _ => cases hx; left; rw [emitRgba_eq, emitAll_eq]; rfl
  | header w h ch cs =>
    simp only [exec, execHeader, serializeHeader] at hx
    split at hx
    · cases hx; exact .inr ⟨w, h, ch, cs, _, rfl, ‹_›, rfl⟩
    · cases hx; left; rw [emitHeader_eq, emitAll_eq]; rfl
  | endMarker => cases hx; left; rw [finish_eq, emitAll_eq]; rfl
  | start _ _ _ _ => cases hc
  | pixel _ _ _ _ => cases hc
  | drain => cases hc
  | sinkfail => cases hc
  | reset => cases hc

/-! ## One step -/

/-- A step lets a turn pass, or stops on a bench's bytes that decode to nothing, or runs one decoded instruction. -/
theorem step_cases (s : State) :
    (nextBeat s = none ∧ step s = .next (passTurn s)) ∨
    (∃ b e, nextBeat s = some b ∧ decode b = .error e ∧ step s = .refused (.undecodable e)) ∨
    (∃ b i, nextBeat s = some b ∧ decode b = .ok i ∧ step s = exec i (accept i b s)) := by
  unfold step
  split
  · exact .inl ⟨‹_›, rfl⟩
  · split
    · exact .inr (.inl ⟨_, _, ‹_›, ‹_›, rfl⟩)
    · exact .inr (.inr ⟨_, _, ‹_›, ‹_›, rfl⟩)

/-- Taking or holding a host's beat touches only the host's side of the ports. -/
theorem accept_host {i : Instr} {b : Beat} {s : State} (hb : s.bench = none) (hn : nextBeat s = some b) :
    ∃ c p o ts, accept i b s = { s with cfgOffers := c, pixOffers := p, outOffers := o, turns := ts } := by
  unfold accept
  split
  · cases b with
    | outUnit bs =>
      simp only [nextBeat, hb] at hn
      split at hn <;> simp at hn
    | cfg _ => exact ⟨_, _, _, _, rfl⟩
    | pix _ => exact ⟨_, _, _, _, rfl⟩
    | outReady => exact ⟨_, _, _, _, rfl⟩
    | sinkErr => exact ⟨_, _, _, _, rfl⟩
    | rst => exact ⟨_, _, _, _, rfl⟩
  · exact ⟨_, _, _, _, rfl⟩

/-! ## Runs of commands -/

theorem isPixelOrDrain_cases {i : Instr} (hi : isPixelOrDrain i = true) :
    (∃ r g b a, i = .pixel r g b a) ∨ i = .drain := by
  cases i with
  | pixel r g b a => exact .inl ⟨r, g, b, a, rfl⟩
  | drain => exact .inr rfl
  | opIndex _ => cases hi
  | opDiff _ _ _ => cases hi
  | opLuma _ _ _ => cases hi
  | opRun _ => cases hi
  | opRgb _ _ _ => cases hi
  | opRgba _ _ _ _ => cases hi
  | header _ _ _ _ => cases hi
  | endMarker => cases hi
  | start _ _ _ _ => cases hi
  | sinkfail => cases hi
  | reset => cases hi

theorem runAll_cons_next {i : Instr} {is : List Instr} {s t : State} (h : exec i s = .next t) :
    runAll (i :: is) s = runAll is t := by
  simp only [runAll, h]

theorem pixelsOf_cons_pixel (r g b a : Byte) (is : List Instr) :
    pixelsOf (.pixel r g b a :: is) = ⟨r, g, b, a⟩ :: pixelsOf is := rfl

theorem pixelsOf_cons_drain (is : List Instr) : pixelsOf (.drain :: is) = pixelsOf is := rfl

end Sys2Proof.Machine
end

