-- ==== Sys2Proof/Laws/PerInstr.lean ====
section
/-! SUPPORT. Statements for all instructions, one lemma per constructor. -/

namespace Sys2Proof.Laws.UnitLength

/-- How many bytes a row puts into the stream: the table's `length_bytes`, none for the five commands
(30_encoding.md R71, R73, R74, R81). -/
def tableLength : Sys2Proof.Instr → Nat
  | .opIndex _ => 1
  | .opDiff _ _ _ => 1
  | .opLuma _ _ _ => 2
  | .opRun _ => 1
  | .opRgb _ _ _ => 4
  | .opRgba _ _ _ _ => 5
  | .header _ _ _ _ => 14
  | .endMarker => 8
  | .start _ _ _ _ => 0
  | .pixel _ _ _ _ => 0
  | .drain => 0
  | .sinkfail => 0
  | .reset => 0

/-- An instruction's encoding has the bytes the table says. -/
def Statement (i : Sys2Proof.Instr) : Prop := (Sys2Proof.unitBytes i).length = tableLength i

theorem opIndex (idx : BitVec 6) : Statement (.opIndex idx) := rfl

theorem opDiff (r g b : BitVec 2) : Statement (.opDiff r g b) := rfl

theorem opLuma (g : BitVec 6) (r b : BitVec 4) : Statement (.opLuma g r b) := rfl

theorem opRun (l : BitVec 6) : Statement (.opRun l) := rfl

theorem opRgb (r g b : Sys2Proof.Byte) : Statement (.opRgb r g b) := rfl

theorem opRgba (r g b a : Sys2Proof.Byte) : Statement (.opRgba r g b a) := rfl

theorem header (w h : BitVec 32) (c : Sys2Proof.Byte) (cs : BitVec 1) : Statement (.header w h c cs) := rfl

theorem endMarker : Statement (.endMarker) := rfl

theorem start (w h : BitVec 32) (ch : Sys2Proof.Byte) (cs : BitVec 1) : Statement (.start w h ch cs) := rfl

theorem pixel (r g b a : Sys2Proof.Byte) : Statement (.pixel r g b a) := rfl

theorem drain : Statement (.drain) := rfl

theorem sinkfail : Statement (.sinkfail) := rfl

theorem reset : Statement (.reset) := rfl

end Sys2Proof.Laws.UnitLength
end

