-- ==== Sys2Proof/Tests/Slice0.lean ====
section
/-! SUPPORT. The model's own tests: smoke tests of WellFormed, words written out from 30_encoding.md, vectors of
95_test_vectors.md (each named in its docstring), and for every obligation with hypotheses a witness that meets them. -/

namespace Sys2Proof.Tests

open Sys2Proof Sys2Proof.Machine

/-! ## Small states -/

/-- The next state of an outcome. -/
def nextOf : Host.Outcome State Fault Refusal → Option State
  | .next t => some t
  | .fault _ => none
  | .refused _ => none

/-- Right after `START n, 1, ch, 0` from reset. -/
def enc (n : BitVec 32) (ch : Byte) : State := afterStart n 1 ch 0 State.reset

/-- The one-pixel encode of W-A in DONE, with `k` of its 23 bytes drained. -/
def doneAfter (k : Nat) : State :=
  let s : State :=
    { enc 1 4 with
      mode := .done
      pixRemain := 0
      out := headerBytes 1 1 4 0 ++ [0xC0] ++ endMarkerBytes
      outCount := 23
      sent := k }
  { s with sink := delivered s }

/-- In ERROR, after a START with width 0. -/
def failed (e : Err) : State := afterBadStart e State.reset

/-- In ENCODING with PREV, RUN and slot contents as given. -/
def mid (n : BitVec 32) (prev : Pixel) (run : BitVec 6) (cache : Memory) : State :=
  { enc n 4 with prev := prev, run := run, cache := cache }

/-- What a command appends to OUT. -/
def appended (i : Instr) (s : State) : Option (List Byte) :=
  (nextOf (exec i s)).map fun t => t.out.drop s.out.length

/-! ## WellFormed refuses ill-formed terms -/

theorem test_wf_refuses_run_62 : (Instr.opRun 62).wellFormed = false := by decide
theorem test_wf_refuses_run_63 : (Instr.opRun 63).wellFormed = false := by decide
theorem test_wf_refuses_header_width_0 : (Instr.header 0 1 4 0).wellFormed = false := by decide
theorem test_wf_refuses_header_height_0 : (Instr.header 1 0 4 0).wellFormed = false := by decide
theorem test_wf_refuses_header_channels_5 : (Instr.header 1 1 5 0).wellFormed = false := by decide

/-! ## Decoding: words written out from 30_encoding.md R71, R73, R74, R79, R80 -/

theorem test_decode_opIndex : decode (.outUnit [0b00001001]) = .ok (.opIndex 9) := by decide
theorem test_decode_opDiff : decode (.outUnit [0b01110101]) = .ok (.opDiff 3 1 1) := by decide
theorem test_decode_opLuma : decode (.outUnit [0b10101010, 0b00111101]) = .ok (.opLuma 42 3 13) := by decide
theorem test_decode_opRun : decode (.outUnit [0b11111101]) = .ok (.opRun 61) := by decide
theorem test_decode_opRgb : decode (.outUnit [0b11111110, 10, 20, 30]) = .ok (.opRgb 10 20 30) := by decide
theorem test_decode_opRgba : decode (.outUnit [0b11111111, 1, 2, 3, 4]) = .ok (.opRgba 1 2 3 4) := by decide
theorem test_decode_header :
    decode (.outUnit [0x71, 0x6F, 0x69, 0x66, 1, 2, 3, 4, 0x0A, 0x0B, 0x0C, 0x0D, 3, 1])
      = .ok (.header 0x01020304 0x0A0B0C0D 3 1) := by decide
theorem test_decode_endMarker : decode (.outUnit [0, 0, 0, 0, 0, 0, 0, 1]) = .ok .endMarker := by decide
/-- The 73 bits of width 8, height 1, channels 4, colorspace 1: `1000 0` at bit 41, `1` at bit 9, `100` at bit 1,
`1` at bit 0. -/
theorem test_decode_start : decode (.cfg (8 <<< 41 ||| 1 <<< 9 ||| 4 <<< 1 ||| 1)) = .ok (.start 8 1 4 1) := by decide
theorem test_decode_pixel : decode (.pix 0x141E2880) = .ok (.pixel 20 30 40 128) := by decide
theorem test_decode_drain : decode .outReady = .ok .drain := by decide
theorem test_decode_sinkfail : decode .sinkErr = .ok .sinkfail := by decide
theorem test_decode_reset : decode .rst = .ok .reset := by decide

/-- Bytes that are no output unit are rejected by name (30_encoding.md R76, R77). -/
theorem test_decode_rejects :
    decode (.outUnit []) = .error .noBytes ∧ decode (.outUnit [0x80]) = .error .truncated ∧
    decode (.outUnit [0x00, 0x00]) = .error .trailingBytes ∧
    decode (.outUnit [0, 0, 0, 0, 0, 0, 0, 0]) = .error .badEndMarker ∧
    decode (.outUnit [0x71, 0x6F, 0x69, 0x67, 0, 0, 0, 1, 0, 0, 0, 1, 4, 0]) = .error .badMagic ∧
    decode (.outUnit [0x71, 0x6F, 0x69, 0x66, 0, 0, 0, 1, 0, 0, 0, 1, 4, 2]) = .error .badColorSpace := by decide

/-- spec/opcode_table.json's numbering: OP_LUMA's second byte is bits 15..8, the header's magic bits 31..0. -/
theorem test_decodeTableWord :
    decodeTableWord 16 0x3DAA = some (.opLuma 42 3 13) ∧ decodeTableWord 8 0xC1 = some (.opRun 1) ∧
    decodeTableWord 32 0x1E140AFE = some (.opRgb 10 20 30) ∧ decodeTableWord 32 0x14284080 = some (.pixel 20 40 64 128) ∧
    decodeTableWord 112 0x716F6966 = some (.header 0 0 0 0) ∧ decodeTableWord 64 1 = some .endMarker := by
  decide

/-- The very next step runs the word placed (log entry 9). -/
theorem test_withFetchWord_start :
    (nextOf (step (State.reset.withFetchWord 73 (8 <<< 41 ||| 1 <<< 9 ||| 4 <<< 1)))).map (·.descW) = some 8 := by
  decide

/-! ## One step at a time -/

/-- V-C3's last token: `09` is INDEX 9. -/
theorem test_opIndex : appended (.opIndex 9) (enc 1 4) = some [0x09] := by decide
/-- W-B: DIFF 1, -1, -1 is `75`. -/
theorem test_opDiff : appended (.opDiff 3 1 1) (enc 1 4) = some [0x75] := by decide
/-- OP_LUMA for dg = 10, dr - dg = -5, db - dg = 5: `AA 3D` (30_encoding.md R74). -/
theorem test_opLuma : appended (.opLuma 42 3 13) (enc 1 4) = some [0xAA, 0x3D] := by decide
/-- V-RUN: a run of 62 is `FD`; RUN is cleared. -/
theorem test_opRun :
    (nextOf (exec (.opRun 61) (mid 9 initialPrev 5 []))).map (fun t => (t.out.drop 14, t.run)) = some ([0xFD], 0) := by
  decide
theorem test_opRun_63_stops : nextOf (exec (.opRun 63) (enc 1 4)) = none := by decide
/-- W-B: RGB 10, 20, 30. -/
theorem test_opRgb : appended (.opRgb 10 20 30) (enc 1 4) = some [0xFE, 0x0A, 0x14, 0x1E] := by decide
/-- V-H12: RGBA 1, 2, 3, 4. -/
theorem test_opRgba : appended (.opRgba 1 2 3 4) (enc 1 4) = some [0xFF, 1, 2, 3, 4] := by decide
/-- V-H1's header bytes. -/
theorem test_header :
    appended (.header 0x01020304 0x0A0B0C0D 3 1) State.reset =
      some [0x71, 0x6F, 0x69, 0x66, 1, 2, 3, 4, 0x0A, 0x0B, 0x0C, 0x0D, 3, 1] := by decide
/-- 40_start_header.md R101: both faults apply, dimensions win. -/
theorem test_header_checks : (nextOf (exec (.header 0 0 7 0) State.reset)).map status = some 0x7 := by decide
theorem test_endMarker :
    (nextOf (exec .endMarker (enc 1 4))).map (fun t => (t.out.drop 14, t.mode)) = some ([0, 0, 0, 0, 0, 0, 0, 1], .done) := by
  decide
/-- V-H2: the largest image. -/
theorem test_start_largest :
    (nextOf (exec (.start 0xFFFFFFFF 0xFFFFFFFF 4 1) State.reset)).map (fun t => (t.pixRemain, status t, t.out)) =
      some (0xFFFFFFFE00000001, 0x1, [0x71, 0x6F, 0x69, 0x66, 0xFF, 0xFF, 0xFF, 0xFF, 0xFF, 0xFF, 0xFF, 0xFF, 4, 1]) := by
  decide
/-- V-H7: STATUS = 0x7, OUT empty. -/
theorem test_start_bad :
    (nextOf (exec (.start 0 0 7 0) State.reset)).map (fun t => (status t, t.out)) = some (0x7, []) := by decide
/-- W-A: the last pixel equals PREV, so `C0` and the end marker; STATUS = 0x2, OUT_COUNT = 23. -/
theorem test_pixel_run :
    (nextOf (exec (.pixel 0 0 0 255) (enc 1 4))).map (fun t => (t.out.drop 14, status t, t.outCount)) =
      some ([0xC0, 0, 0, 0, 0, 0, 0, 0, 1], 0x2, 23) := by decide
/-- V-C3's last pixel: the pending run's `C0`, then INDEX 9. -/
theorem test_pixel_run_then_hit :
    appended (.pixel 10 20 30 255) (mid 2 ⟨11, 19, 29, 255⟩ 1 [(0, ⟨11, 19, 29, 255⟩), (9, ⟨10, 20, 30, 255⟩)])
      = some [0xC0, 0x09] := by decide
/-- 44_byte_packer_termination.md R192: the final byte carries `out_last`. -/
theorem test_drain_last :
    (nextOf (exec .drain (doneAfter 22))).map (fun t => (t.sent, t.sink.getLast?)) = some (23, some ⟨0x01, true⟩) := by
  decide
/-- 00_scope.md R9: a DRAIN offered from reset is held and stays offered while the turn passes. -/
theorem test_drain_held_stays_offered :
    nextOf (step { State.reset with turns := [.out, .cfg], outOffers := 1 }) =
      some { State.reset with turns := [.cfg], outOffers := 1 } := by decide
/-- 60_exceptions.md R213, R215: STATUS = 0xF and the pending bytes are dropped. -/
theorem test_sinkfail_raises :
    (nextOf (exec .sinkfail (doneAfter 5))).map (fun t => (status t, t.out.length)) = some (0xF, 5) := by decide
theorem test_sinkfail_ignored : nextOf (exec .sinkfail (doneAfter 23)) = some (doneAfter 23) := by decide
/-- 70_reset_and_hazards.md R240: RESET from the middle of an encode; what the sink holds stays. -/
theorem test_reset :
    nextOf (exec .reset (doneAfter 5)) = some { State.reset with sink := (doneAfter 5).sink } := by decide

/-- V-HASH. -/
theorem test_hash :
    hashOf ⟨255, 255, 255, 255⟩ = 38 ∧ hashOf ⟨10, 20, 30, 255⟩ = 9 ∧ hashOf ⟨0, 0, 0, 255⟩ = 53 ∧
    hashOf ⟨1, 2, 3, 4⟩ = 14 ∧ hashOf ⟨255, 0, 0, 0⟩ = 61 := by decide
/-- V-C1: after START a probe reads (0,0,0,0) under ZERO and empty under EMPTY. -/
theorem test_cache_init :
    probe 9 (enc 2 4) = some ⟨0, 0, 0, 0⟩ ∧ probe 9 { enc 2 4 with cacheInit := .empty } = none := by decide
/-- 44_byte_packer_termination.md R197 on W-B's stream. -/
theorem test_decodeStream :
    decodeStream .zero (headerBytes 2 1 4 0 ++ [0xFE, 0x0A, 0x14, 0x1E, 0x75] ++ endMarkerBytes) =
      some ⟨2, 1, 4, 0, [⟨10, 20, 30, 255⟩, ⟨11, 19, 29, 255⟩]⟩ := by decide
/-- The reset cache is canonical, and a slot written back to (0,0,0,0) is unlisted (log entry 8). -/
theorem test_memory_wf :
    Memory.wf State.reset.cacheInit State.reset.cache = true ∧ Memory.write .zero 3 zeroPixel [(3, initialPrev)] = [] ∧
    Memory.write .empty 3 zeroPixel [] = [(3, zeroPixel)] := by decide

/-! ## Witnesses: states and operands that meet the hypotheses of the obligations -/

/-- START states meet the invariant; so do the states below. -/
theorem inv_enc : Inv (enc 9 4) := by
  constructor <;> first | decide | (intro h; exact absurd h (by decide)) | exact ⟨[], rfl⟩

theorem inv_enc3 : Inv (enc 9 3) := by
  constructor <;> first | decide | (intro h; exact absurd h (by decide)) | exact ⟨[], rfl⟩

theorem inv_done : Inv (doneAfter 23) := by
  constructor <;>
    first
    | decide
    | exact fun _ => ⟨headerBytes 1 1 4 0 ++ [0xC0], rfl⟩
    | exact ⟨[], rfl⟩

theorem inv_failed1 : Inv (failed .invalidDimensions) := by
  constructor <;> first | decide | (intro h; exact absurd h (by decide)) | exact ⟨[], rfl⟩

theorem inv_failed2 : Inv (failed .unsupportedChannelCount) := by
  constructor <;> first | decide | (intro h; exact absurd h (by decide)) | exact ⟨[], rfl⟩

theorem inv_failed3 : Inv (failed .sinkFailure) := by
  constructor <;> first | decide | (intro h; exact absurd h (by decide)) | exact ⟨[], rfl⟩

theorem inv_idle : Inv { State.reset with turns := [.pix] } := by
  constructor <;> first | decide | (intro h; exact absurd h (by decide)) | exact ⟨[], rfl⟩

theorem witness_DecodeEncodeRoundTrip :
    (Instr.opRun 61).wellFormed = true ∧ (Instr.header 1 0xFFFFFFFF 3 1).wellFormed = true ∧
    (Instr.opIndex 63).wellFormed = true ∧ (Instr.start 0 0 0 0).wellFormed = true := by decide

theorem witness_DecodedBeatReencodes :
    decode (.outUnit [0xFD]) = .ok (.opRun 61) ∧ decode (.cfg 1) = .ok (.start 0 0 0 1) := by decide

theorem witness_FirstByteTellsToken :
    decodeToken [0xFE, 1, 2, 3] = .ok (.opRgb 1 2 3, []) ∧ decodeToken [0xFF, 1, 2, 3, 4, 5] = .ok (.opRgba 1 2 3 4, [5]) ∧
    decodeToken [0x3F] = .ok (.opIndex 63, []) ∧ decodeToken [0x40] = .ok (.opDiff 0 0 0, []) ∧
    decodeToken [0x7F] = .ok (.opDiff 3 3 3, []) ∧ decodeToken [0x80, 0] = .ok (.opLuma 0 0 0, []) ∧
    decodeToken [0xBF, 0xFF] = .ok (.opLuma 63 15 15, []) ∧ decodeToken [0xC0] = .ok (.opRun 0, []) ∧
    decodeToken [0xFD] = .ok (.opRun 61, []) := by decide

theorem witness_ReservedRunFieldStops :
    62 ≤ (62 : BitVec 6).toNat ∧ 62 ≤ (63 : BitVec 6).toNat ∧ decode (.outUnit [0xFD]) = .ok (.opRun 61) := by decide

theorem witness_UnitsEmitTheirEncoding :
    (Instr.opRun 61).wellFormed = true ∧ (Instr.opRun 61).isCommand = false ∧ Instr.endMarker.wellFormed = true ∧
    Instr.endMarker.isCommand = false ∧ (Instr.header 1 1 3 0).wellFormed = true ∧
    (Instr.header 1 1 3 0).isCommand = false := by decide

theorem witness_OpDiffEmitsBiasedDeltas :
    (-2 : Int) ≤ -2 ∧ (-2 : Int) ≤ 1 ∧ appended (.opDiff (BitVec.ofInt 2 (-2 + 2)) (BitVec.ofInt 2 (1 + 2)) 2) (enc 1 4)
      = some [0b01001110] := by decide

theorem witness_OpLumaEmitsBiasedDeltas :
    (-32 : Int) ≤ -32 ∧ (-8 : Int) ≤ -40 - -32 ∧ (-25 : Int) - -32 ≤ 7 ∧
    appended (.opLuma (BitVec.ofInt 6 (-32 + 32)) (BitVec.ofInt 4 (-40 - -32 + 8)) (BitVec.ofInt 4 (-25 - -32 + 8))) (enc 1 4)
      = some [0x80, 0x0F] := by decide

theorem witness_OpRunEmitsAndClearsRun :
    1 ≤ 62 ∧ 62 ≤ 62 ∧ (mid 9 initialPrev 62 []).run.toNat = 62 ∧ (mid 9 initialPrev 1 []).run.toNat = 1 ∧ appended (.opRun (BitVec.ofNat 6 (62 - 1))) (enc 1 4) = some [0xFD] ∧
    appended (.opRun (BitVec.ofNat 6 (1 - 1))) (enc 1 4) = some [0xC0] := by decide

theorem valid_1_1_3 : ValidDescriptor 1 1 3 := by unfold ValidDescriptor; decide
theorem valid_1_1_4 : ValidDescriptor 1 1 4 := by unfold ValidDescriptor; decide

theorem witness_HeaderSerializesDescriptor :
    ValidDescriptor 1 1 3 ∧ ValidDescriptor 1 1 4 ∧ State.reset.sent ≤ State.reset.out.length ∧
    (2 : Byte) ≠ 3 ∧ (2 : Byte) ≠ 4 ∧ (5 : Byte) ≠ 3 ∧ (5 : Byte) ≠ 4 := ⟨valid_1_1_3, valid_1_1_4, by decide⟩

theorem witness_StartBeginsEncode :
    ValidDescriptor 1 1 3 ∧ (doneAfter 23).mode ≠ .encoding ∧ (doneAfter 23).sent = (doneAfter 23).out.length ∧
    (failed .sinkFailure).mode ≠ .encoding ∧ (failed .sinkFailure).sent = (failed .sinkFailure).out.length :=
  ⟨valid_1_1_3, by decide⟩

theorem witness_StartInvalidDimensions :
    State.reset.mode ≠ .encoding ∧ State.reset.sent = State.reset.out.length ∧
    (nextOf (exec (.start 0 5 4 0) State.reset)).map status = some 0x7 ∧
    (nextOf (exec (.start 5 0 4 0) State.reset)).map status = some 0x7 := by decide

theorem witness_StartUnsupportedChannels :
    State.reset.mode ≠ .encoding ∧ State.reset.sent = State.reset.out.length ∧
    (nextOf (exec (.start 1 1 2 0) State.reset)).map status = some 0xB ∧
    (nextOf (exec (.start 1 1 5 0) State.reset)).map status = some 0xB := by decide

/-- V-H8, V-H9: a START offered in ENCODING, in DONE with one byte pending, and in DONE with none. -/
theorem witness_StartHeldStaysOffered :
    let offer : State → State := fun s => { s with turns := [.cfg], cfgOffers := [1] }
    ((offer (enc 1 4)).bench = none ∧ (offer (enc 1 4)).mode = .encoding) ∧
    outQueue (offer (doneAfter 22)) = [0x01] ∧
    ((offer (doneAfter 23)).mode ≠ .encoding ∧ outQueue (offer (doneAfter 23)) = [] ∧
      (offer (doneAfter 23)).sent ≤ (offer (doneAfter 23)).out.length) := by decide

theorem witness_StartForgetsPreviousEncode :
    let s1 : State := State.reset
    let s2 : State := { doneAfter 23 with sink := [] }
    ValidDescriptor 1 1 3 ∧ s1.mode ≠ .encoding ∧ s1.sent = s1.out.length ∧ s2.mode ≠ .encoding ∧
    s2.sent = s2.out.length ∧ s1.cacheInit = s2.cacheInit ∧ s1.cfgOffers = s2.cfgOffers ∧
    s1.pixOffers = s2.pixOffers ∧ s1.outOffers = s2.outOffers ∧ s1.turns = s2.turns ∧ s1.sink = s2.sink ∧ s1.bench = s2.bench ∧ s1.out ≠ s2.out :=
  ⟨valid_1_1_3, by decide⟩

/-- RUN = 60 and 61, and the last pixel. -/
theorem witness_PixelJoinsRun :
    (mid 9 initialPrev 60 []).mode = .encoding ∧ normalise 4 ⟨0, 0, 0, 255⟩ = (mid 9 initialPrev 60 []).prev ∧
    (mid 9 initialPrev 60 []).run.toNat + 1 < 62 ∧ (mid 9 initialPrev 60 []).pixRemain ≠ 1 ∧
    (mid 9 initialPrev 61 []).run.toNat + 1 = 62 ∧ (mid 1 initialPrev 0 []).pixRemain = 1 := by decide

theorem witness_PixelHitEmitsIndex :
    let s := mid 1 initialPrev 61 [(9, ⟨10, 20, 30, 255⟩)]
    let p : Pixel := ⟨10, 20, 30, 255⟩
    s.mode = .encoding ∧ s.run.toNat ≤ 61 ∧ p = normalise s.descCh p ∧ p ≠ s.prev ∧ probe (hashOf p) s = some p := by decide

/-- Deltas (1, -2, -2), the ends of the small ranges. -/
theorem witness_PixelMissEmitsDiff :
    let s := mid 1 initialPrev 61 []
    let p : Pixel := ⟨1, 254, 254, 255⟩
    s.mode = .encoding ∧ s.run.toNat ≤ 61 ∧ Memory.wf s.cacheInit s.cache = true ∧ p = normalise s.descCh p ∧
    p ≠ s.prev ∧ probe (hashOf p) s ≠ some p ∧ p.a = s.prev.a ∧ delta p.r s.prev.r = 1 ∧ delta p.g s.prev.g = -2 ∧
    delta p.b s.prev.b = -2 := by decide

/-- dg = 31, dr - dg = 7, db - dg = -8: the ends of the luma ranges. -/
theorem witness_PixelMissEmitsLuma :
    let s := mid 1 initialPrev 0 []
    let p : Pixel := ⟨38, 31, 23, 255⟩
    s.mode = .encoding ∧ s.run.toNat ≤ 61 ∧ Memory.wf s.cacheInit s.cache = true ∧ p = normalise s.descCh p ∧
    p ≠ s.prev ∧ probe (hashOf p) s ≠ some p ∧ p.a = s.prev.a ∧ delta p.r s.prev.r = 38 ∧ delta p.g s.prev.g = 31 ∧
    delta p.b s.prev.b = 23 := by decide

/-- dg = 32, one outside the luma range. -/
theorem witness_PixelMissEmitsRgb :
    let s := mid 1 initialPrev 0 []
    let p : Pixel := ⟨32, 32, 32, 255⟩
    s.mode = .encoding ∧ s.run.toNat ≤ 61 ∧ Memory.wf s.cacheInit s.cache = true ∧ p = normalise s.descCh p ∧
    p ≠ s.prev ∧ probe (hashOf p) s ≠ some p ∧ p.a = s.prev.a ∧ delta p.g s.prev.g = 32 := by decide

theorem witness_PixelMissEmitsRgba :
    let s := mid 1 initialPrev 0 []
    let p : Pixel := ⟨0, 0, 0, 254⟩
    s.mode = .encoding ∧ s.run.toNat ≤ 61 ∧ Memory.wf s.cacheInit s.cache = true ∧ p = normalise s.descCh p ∧
    probe (hashOf p) s ≠ some p ∧ p.a ≠ s.prev.a := by decide

theorem witness_PixelHeldStaysOffered :
    let offer : State → State := fun s => { s with turns := [.pix], pixOffers := [0xFF] }
    (offer State.reset).bench = none ∧ (offer State.reset).pixOffers = [0xFF] ∧ (offer State.reset).mode ≠ .encoding ∧
    (offer (enc 1 4)).bench = none ∧ (offer (enc 1 4)).mode = .encoding ∧
    (offer (enc 1 4)).turns = [.pix] ∧ ({ offer (enc 1 4) with turns := [.rst] } : State).turns = [.rst] := by decide

theorem witness_PixelUpdatesPrevAndCount : (enc 1 4).mode = .encoding ∧ (enc 1 4).pixRemain = 1 := by decide

/-- Its clauses: join with RUN = 60, flush at RUN = 61 and at the last pixel, own token with RUN = 0 and RUN ≠ 0. -/
theorem witness_PixelStepByteCounts :
    (mid 9 initialPrev 60 []).mode = .encoding ∧ (mid 9 initialPrev 60 []).run.toNat ≤ 61 ∧
    appended (.pixel 0 0 0 255) (mid 9 initialPrev 60 []) = some [] ∧
    appended (.pixel 0 0 0 255) (mid 9 initialPrev 61 []) = some [0xFD] ∧
    appended (.pixel 0 0 0 255) (mid 1 initialPrev 0 []) = some [0xC0, 0, 0, 0, 0, 0, 0, 0, 1] ∧
    appended (.pixel 1 2 3 4) (mid 9 initialPrev 0 []) = some [0xFF, 1, 2, 3, 4] ∧
    appended (.pixel 1 2 3 4) (mid 1 initialPrev 61 []) = some [0xFC, 0xFF, 1, 2, 3, 4, 0, 0, 0, 0, 0, 0, 0, 1] := by
  decide

theorem witness_PixelStepTokens : (mid 1 initialPrev 61 []).mode = .encoding ∧ (mid 1 initialPrev 61 []).run.toNat ≤ 61 := by
  decide

theorem witness_ThreeChannelIgnoresAlpha : Inv (enc 9 3) ∧ (enc 9 3).mode = .encoding ∧ (enc 9 3).descCh = 3 :=
  ⟨inv_enc3, by decide⟩

theorem witness_GeometryDoesNotReachBody :
    (∀ i ∈ [Instr.pixel 1 2 3 4, .drain], isPixelOrDrain i = true) ∧
    ∃ t, runAll [.pixel 1 2 3 4, .drain] (enc 9 4) = .next t := ⟨by decide, _, rfl⟩

/-- W-C's smaller instance, where the hashes are equal, and V-C3's pixels, where they are not. -/
theorem witness_CacheReadAfterWrite :
    Inv (enc 9 4) ∧ (enc 9 4).mode = .encoding ∧ (enc 9 4).descCh = 4 ∧ 3 < (enc 9 4).pixRemain.toNat ∧
    (⟨64, 0, 0, 255⟩ : Pixel) ≠ (enc 9 4).prev ∧ (⟨64, 0, 0, 255⟩ : Pixel) ≠ ⟨0, 64, 0, 255⟩ ∧
    hashOf ⟨64, 0, 0, 255⟩ = hashOf ⟨0, 64, 0, 255⟩ ∧
    (⟨10, 20, 30, 255⟩ : Pixel) ≠ (enc 9 4).prev ∧ hashOf ⟨10, 20, 30, 255⟩ ≠ hashOf ⟨11, 19, 29, 255⟩ :=
  ⟨inv_enc, by decide⟩

theorem witness_DrainTransfersNextByte :
    (doneAfter 22).sent < (doneAfter 22).out.length ∧ (doneAfter 22).mode ≠ .error ∧
    (enc 1 4).sent < (enc 1 4).out.length ∧ (enc 1 4).mode ≠ .error := by decide

/-- OUTQ empty, one byte pending, and a DRAIN offered. -/
theorem witness_DrainHeldWhenQueueEmpty :
    let offer : State → State := fun s => { s with turns := [.out], outOffers := 1 }
    ((offer (doneAfter 23)).sent = (offer (doneAfter 23)).out.length ∧ (offer (doneAfter 23)).bench = none ∧
      (offer (doneAfter 23)).turns = [.out] ∧ (offer (doneAfter 23)).outOffers = 0 + 1) ∧
    (offer (doneAfter 22)).bench = none ∧ (offer (doneAfter 22)).sent < (offer (doneAfter 22)).out.length ∧
    (offer (doneAfter 22)).mode ≠ .error := by decide

theorem witness_DrainCommutesWithPixel : Inv (enc 9 4) ∧ (enc 9 4).mode = .encoding ∧ (enc 9 4).sent < (enc 9 4).out.length :=
  ⟨inv_enc, by decide⟩

/-- ENCODING; DONE with one byte pending; DONE with none. -/
theorem witness_SinkFailRaisesOrIsIgnored :
    (enc 1 4).sent ≤ (enc 1 4).out.length ∧ (enc 1 4).mode = .encoding ∧
    ((doneAfter 22).mode = .done ∧ (doneAfter 22).sent < (doneAfter 22).out.length) ∧
    ¬ ((doneAfter 23).mode = .encoding ∨ ((doneAfter 23).mode = .done ∧ (doneAfter 23).sent < (doneAfter 23).out.length)) ∧
    (doneAfter 23).sent ≤ (doneAfter 23).out.length := by decide

/-- STATUS in every mode and with every error. -/
theorem witness_StatusIsErrAndMode :
    Inv { State.reset with turns := [.pix] } ∧ Inv (enc 9 4) ∧ Inv (doneAfter 23) ∧ Inv (failed .invalidDimensions) ∧
    Inv (failed .unsupportedChannelCount) ∧ Inv (failed .sinkFailure) ∧
    status (enc 9 4) = 0x1 ∧ status (doneAfter 23) = 0x2 ∧ status (failed .invalidDimensions) = 0x7 ∧
    status (failed .unsupportedChannelCount) = 0xB ∧ status (failed .sinkFailure) = 0xF :=
  ⟨inv_idle, inv_enc, inv_done, inv_failed1, inv_failed2, inv_failed3, by decide⟩

theorem witness_StepRunsDecodedCommand :
    State.reset.bench = none ∧ decode (.cfg 1) = .ok (.start 0 0 0 1) ∧ decode (.pix 1) = .ok (.pixel 0 0 0 1) ∧
    ({ State.reset with turns := [.cfg], cfgOffers := [1] } : State).cfgOffers = [1] ∧
    ({ State.reset with turns := [.pix], pixOffers := [1] } : State).pixOffers = [1] ∧
    ({ State.reset with turns := [.out], outOffers := 1 } : State).outOffers = 0 + 1 ∧
    ({ State.reset with bench := some [9] } : State).bench = some [9] ∧ decode (.outUnit [9]) = .ok (.opIndex 9) := by decide

theorem witness_StepWaitsWithoutOffer :
    State.reset.bench = none ∧ State.reset.turns = [] ∧ State.reset.cfgOffers = [] ∧ State.reset.pixOffers = [] ∧
    State.reset.outOffers = 0 ∧ ({ State.reset with turns := [.out] } : State).turns = [.out] ∧
    ({ State.reset with turns := [.cfg] } : State).turns = [.cfg] ∧
    ({ State.reset with turns := [.pix] } : State).turns = [.pix] := by decide

theorem witness_StepKeepsInvariant :
    Inv { State.reset with turns := [.pix] } ∧ ∃ t, step { State.reset with turns := [.pix] } = .next t :=
  ⟨inv_idle, _, rfl⟩

theorem witness_SinkStreamIsAppendOnly :
    (∃ t, exec .drain (doneAfter 22) = .next t) ∧ (∀ w h ch cs, Instr.drain ≠ .start w h ch cs) ∧ Instr.drain ≠ .reset :=
  ⟨⟨_, rfl⟩, by simp, by simp⟩

theorem witness_SuccessReachedTheSink : Inv (doneAfter 23) ∧ Succeeded (doneAfter 23) :=
  ⟨inv_done, by unfold Succeeded; decide⟩

theorem witness_CacheWrittenOnlyByMissOrInit :
    Memory.wf (enc 9 4).cacheInit (enc 9 4).cache = true ∧ ∃ t, exec (.pixel 1 2 3 4) (enc 9 4) = .next t :=
  ⟨by decide, _, rfl⟩

/-- Each way MODE changes: START good and bad, the last pixel, END_MARKER, SINKFAIL, RESET. -/
theorem witness_ModeWriters :
    (nextOf (exec (.start 1 1 4 0) State.reset)).map (·.mode) = some .encoding ∧
    (nextOf (exec (.start 0 1 4 0) State.reset)).map (·.mode) = some .error ∧
    (nextOf (exec (.header 0 1 4 0) State.reset)).map (·.mode) = some .error ∧
    (nextOf (exec (.pixel 0 0 0 255) (enc 1 4))).map (·.mode) = some .done ∧
    (nextOf (exec .endMarker (enc 1 4))).map (·.mode) = some .done ∧
    (nextOf (exec .sinkfail (enc 1 4))).map (·.mode) = some .error ∧
    (nextOf (exec .reset (enc 1 4))).map (·.mode) = some .idle := by decide

theorem witness_DescriptorWriters :
    (nextOf (exec (.start 1 2 4 1) State.reset)).map (fun t => (t.descW, t.descH, t.descCh, t.descCs)) = some (1, 2, 4, 1) ∧
    (nextOf (exec .reset (enc 1 4))).map (fun t => (t.descW, t.descH, t.descCh, t.descCs)) = some (0, 0, 0, 0) := by
  decide

theorem witness_PixelAndDrainRaiseNothing :
    isPixelOrDrain .drain = true ∧ isPixelOrDrain (.pixel 1 2 3 4) = true ∧ Inv (enc 9 4) ∧
    Inv (failed .sinkFailure) := ⟨by decide, by decide, inv_enc, inv_failed3⟩

theorem witness_ErrorStateCommands : Inv (failed .sinkFailure) ∧ Failed (failed .sinkFailure) :=
  ⟨inv_failed3, by unfold Failed; decide⟩

/-- SmallDiff at its ends and one outside. -/
theorem witness_SmallDiffHardwareForm :
    smallDiff (deltas ⟨1, 254, 0, 0⟩ ⟨0, 0, 0, 0⟩) = true ∧ smallDiff (deltas ⟨2, 0, 0, 0⟩ ⟨0, 0, 0, 0⟩) = false := by decide

theorem witness_LumaWrapIrrelevant :
    luma (deltas ⟨38, 31, 23, 0⟩ ⟨0, 0, 0, 0⟩) = true ∧ luma (deltas ⟨128, 127, 0, 0⟩ ⟨0, 0, 0, 0⟩) = false ∧
    smallDiff (deltas ⟨1, 254, 0, 0⟩ ⟨0, 0, 0, 0⟩) = true := by decide

/-- W-A's commands with a DRAIN among them: a whole encode of one pixel. -/
theorem whole_1_1 (ch : Byte) (hv : ValidDescriptor 1 1 ch) : WholeEncode 1 1 ch [.drain, .pixel 0 0 0 255, .drain] :=
  ⟨hv, by decide, by decide⟩

theorem witness_StreamLayout :
    State.reset.mode ≠ .encoding ∧ State.reset.sent = State.reset.out.length ∧
    WholeEncode 1 1 4 [.drain, .pixel 0 0 0 255, .drain] := ⟨by decide, by decide, whole_1_1 4 valid_1_1_4⟩

theorem witness_EncodeSizeBounds :
    (doneAfter 23).mode ≠ .encoding ∧ (doneAfter 23).sent = (doneAfter 23).out.length ∧
    WholeEncode 1 1 3 [.drain, .pixel 0 0 0 255, .drain] := ⟨by decide, by decide, whole_1_1 3 valid_1_1_3⟩

theorem witness_LosslessRoundTrip :
    (failed .sinkFailure).mode ≠ .encoding ∧ (failed .sinkFailure).sent = (failed .sinkFailure).out.length ∧
    WholeEncode 1 1 4 [.drain, .pixel 0 0 0 255, .drain] := ⟨by decide, by decide, whole_1_1 4 valid_1_1_4⟩

theorem witness_CacheInitUnobservableThreeChannel :
    State.reset.mode ≠ .encoding ∧ State.reset.sent = State.reset.out.length ∧
    WholeEncode 1 1 3 [.drain, .pixel 0 0 0 255, .drain] := ⟨by decide, by decide, whole_1_1 3 valid_1_1_3⟩

/-- V-C1 in a running encode, with a run of 61 pending and the last pixel: both values of CACHE_INIT. -/
theorem witness_ZeroPixelHitsUnderZeroOnly :
    let s := mid 1 initialPrev 61 []
    s.mode = .encoding ∧ s.descCh = 4 ∧ s.run.toNat ≤ 61 ∧ Memory.wf .zero s.cache = true ∧
    Memory.wf .empty s.cache = true ∧ (⟨0, 0, 0, 0⟩ : Pixel) ≠ s.prev ∧ InitialSlot .zero (probe 0 s) ∧
    InitialSlot .empty (probe 0 { s with cacheInit := .empty }) := by decide

/-- Both clauses: an encode with slot 9 stored and slot 0 unwritten, and what the pixel (0,0,0,0) makes of it, where the
two OUTs differ (R128.2). -/
theorem witness_CacheInitSameOnceSlotZeroAgrees :
    let z := mid 9 initialPrev 61 [(9, ⟨10, 20, 30, 255⟩)]
    let e : State := { z with cacheInit := .empty }
    let z1 := pixelStep ⟨0, 0, 0, 0⟩ z
    let e1 := pixelStep ⟨0, 0, 0, 0⟩ e
    EncodersAgree z e ∧ z.mode = .encoding ∧ z.descCh = 4 ∧ (⟨0, 0, 0, 0⟩ : Pixel) ≠ z.prev ∧
    InitialSlot .zero (probe 0 z) ∧ InitialSlot .empty (probe 0 e) ∧
    (∀ i ∈ [Instr.drain, .pixel 0 0 0 0], isPixelOrDrain i = true) ∧ (∀ i ∈ [Instr.pixel 0 0 0 0], isPixelOrDrain i = true) ∧
    pixelsOf [.drain, .pixel 0 0 0 0] = pixelsOf [.pixel 0 0 0 0] ∧
    EncodersAgree z1 e1 ∧ probe 0 z1 = probe 0 e1 ∧ z1.out ≠ e1.out := by
  refine ⟨?_, by decide, by decide, by decide, by decide, by decide, by decide, by decide, by decide, ?_, by decide, by decide⟩
  all_goals exact ⟨by decide, by decide, by decide, by decide, by decide, by decide, by decide, by decide, by decide,
    by decide, by decide⟩

end Sys2Proof.Tests
end

section
/-! What an instruction does, as one relation, and what the next transfer is: the facts the statements about the
state rest on. -/

namespace Sys2Proof.Machine

/-! ## Every effect an instruction can have -/

/-- What an output unit leaves: its bytes at the end of OUT, RUN and MODE by its row (log entry 4). -/
def afterUnit (i : Instr) (s : State) : State :=
  { s with
    out := s.out ++ unitBytes i
    outCount := s.outCount + BitVec.ofNat 64 (unitBytes i).length
    run := runAfterUnit i s
    mode := modeAfterUnit i s }

/-- The next states `exec` can answer, one constructor per way an instruction can go (10_state.md R20; log entries 2, 4). -/
inductive ExecEffect : Instr → State → State → Prop where
  /-- A command that is not enabled is held. -/
  | held {i : Instr} {s : State} (disabled : enabled i s = false) : ExecEffect i s s
  | startValid {w h : BitVec 32} {ch : Byte} {cs : BitVec 1} {s : State} (ready : cfgReady s = true)
      (valid : ValidDescriptor w h ch) : ExecEffect (.start w h ch cs) s (afterStart w h ch cs s)
  | startBad {w h : BitVec 32} {ch : Byte} {cs : BitVec 1} {s : State} {e : Err} (ready : cfgReady s = true)
      (bad : descriptorError w h ch = some e) : ExecEffect (.start w h ch cs) s (afterBadStart e s)
  | pixel {r g b a : Byte} {s : State} (encoding : s.mode = .encoding) :
      ExecEffect (.pixel r g b a) s (pixelStep (normalise s.descCh ⟨r, g, b, a⟩) s)
  | drain {s : State} (valid : outValid s = true) : ExecEffect .drain s (transferByte s)
  | sinkfailIgnored {s : State} (ignored : sinkFailRaises s = false) : ExecEffect .sinkfail s s
  | sinkfail {s : State} (raises : sinkFailRaises s = true) : ExecEffect .sinkfail s (raise .sinkFailure s)
  | reset {s : State} : ExecEffect .reset s (resetBlock s)
  | unit {i : Instr} {s : State} (noCommand : i.isCommand = false) : ExecEffect i s (afterUnit i s)
  | headerBad {w h : BitVec 32} {ch : Byte} {cs : BitVec 1} {s : State} {e : Err}
      (bad : descriptorError w h ch = some e) : ExecEffect (.header w h ch cs) s (raise e s)

theorem ExecEffect.of_unit {i : Instr} {s t : State} (hc : i.isCommand = false) (hx : exec i s = .next t) :
    ExecEffect i s t := by
  rcases exec_unit_cases hc hx with rfl | ⟨w, h, ch, cs, e, rfl, he, rfl⟩
  · exact .unit hc
  · exact .headerBad he

/-- Every next state `exec` answers is one of the effects. -/
theorem ExecEffect.of_exec {i : Instr} {s t : State} (hx : exec i s = .next t) : ExecEffect i s t := by
  cases i with
  | start w h ch cs =>
    obtain ⟨hr, rfl⟩ | ⟨hr, hv, rfl⟩ | ⟨hr, e, he, rfl⟩ := exec_start_cases hx
    · exact .held hr
    · exact .startValid hr hv
    · exact .startBad hr he
  | pixel r g b a =>
    obtain ⟨hm, rfl⟩ | ⟨hm, rfl⟩ := exec_pixel_cases hx
    · exact .held (decide_eq_false hm)
    · exact .pixel hm
  | drain =>
    obtain ⟨hv, rfl⟩ | ⟨hv, rfl⟩ := exec_drain_cases hx
    · exact .held hv
    · exact .drain hv
  | sinkfail =>
    obtain ⟨hf, rfl⟩ | ⟨hf, rfl⟩ := exec_sinkfail_cases hx
    · exact .sinkfailIgnored hf
    · exact .sinkfail hf
  | reset => cases hx; exact .reset
  | opIndex _ => exact .of_unit rfl hx
  | opDiff _ _ _ => exact .of_unit rfl hx
  | opLuma _ _ _ => exact .of_unit rfl hx
  | opRun _ => exact .of_unit rfl hx
  | opRgb _ _ _ => exact .of_unit rfl hx
  | opRgba _ _ _ _ => exact .of_unit rfl hx
  | header _ _ _ _ => exact .of_unit rfl hx
  | endMarker => exact .of_unit rfl hx

/-- END_MARKER is the one output unit that writes MODE (44_byte_packer_termination.md R190). -/
theorem modeAfterUnit_of_ne_endMarker {i : Instr} (hi : i ≠ .endMarker) (s : State) : modeAfterUnit i s = s.mode := by
  cases i with
  | endMarker => exact absurd rfl hi
  | _ => rfl

theorem not_validDescriptor_of_error {w h : BitVec 32} {ch : Byte} {e : Err} (he : descriptorError w h ch = some e) :
    ¬ ValidDescriptor w h ch := by
  rw [← descriptorError_eq_none, he]
  simp

/-- A PIXEL step writes MODE at the last pixel only (42_pixel_selector.md R148). -/
theorem pixelStep_mode (p : Pixel) (s : State) :
    (pixelStep p s).mode = if s.pixRemain = 1 then .done else s.mode := by
  obtain ⟨bytes, run, cache, h⟩ := pixelStep_after p s
  rw [h]
  rfl

/-! ## What decodes to what -/

theorem isCommand_of_isToken {i : Instr} (hi : i.isToken = true) : i.isCommand = false := by
  revert hi
  cases i <;> simp [Instr.isToken, Instr.isCommand]

theorem decodeToken_isToken {bs rest : List Byte} {i : Instr} (hd : decodeToken bs = .ok (i, rest)) :
    i.isToken = true := by
  unfold decodeToken at hd
  repeat' split at hd
  all_goals cases hd
  all_goals rfl

theorem decodeOneToken_isToken {bs : List Byte} {i : Instr} (hd : decodeOneToken bs = .ok i) : i.isToken = true := by
  unfold decodeOneToken at hd
  split at hd
  · cases hd
  · cases hd
    exact decodeToken_isToken ‹_›
  · cases hd

theorem decodeHeader_isCommand {bs : List Byte} {i : Instr} (hd : decodeHeader bs = .ok i) : i.isCommand = false := by
  unfold decodeHeader at hd
  repeat' split at hd
  all_goals cases hd
  rfl

theorem decodeEndMarker_isCommand {bs : List Byte} {i : Instr} (hd : decodeEndMarker bs = .ok i) :
    i.isCommand = false := by
  unfold decodeEndMarker at hd
  split at hd <;> cases hd
  rfl

/-- The bytes of an output unit never decode to a command (30_encoding.md R81). -/
theorem decodeUnit_isCommand {bs : List Byte} {i : Instr} (hd : decodeUnit bs = .ok i) : i.isCommand = false := by
  unfold decodeUnit at hd
  split at hd
  · exact decodeHeader_isCommand hd
  · split at hd
    · exact decodeEndMarker_isCommand hd
    · exact isCommand_of_isToken (decodeOneToken_isToken hd)

/-- An output unit is always taken (log entry 4). -/
theorem enabled_of_not_isCommand {i : Instr} (hc : i.isCommand = false) (s : State) : enabled i s = true := by
  revert hc
  cases i <;> simp [Instr.isCommand, enabled]

end Sys2Proof.Machine
end

section
/-! Every step keeps the invariants of 10_state.md R42: one lemma per effect of a command. -/

namespace Sys2Proof.Machine

/-! ## What the sink holds of the current encode -/

/-- While the stream's final byte is not yet with the sink, no transfer of it has `out_last`
(44_byte_packer_termination.md R192). -/
theorem delivered_of_not_last {s : State} (hs : s.sent ≤ s.out.length)
    (hl : s.mode ≠ .done ∨ s.sent < s.out.length) :
    delivered s = (s.out.take s.sent).map fun b => ⟨b, false⟩ := by
  have hlast : ∀ k < s.sent, (decide (s.mode = .done) && decide (k + 1 = s.out.length)) = false := by
    intro k hk
    rcases hl with hm | hlt
    · simp [hm]
    · simp [show k + 1 ≠ s.out.length by omega]
  apply List.ext_getElem
  · simp [delivered, hs]
  · intro k hk _
    simp only [delivered, List.length_map, List.length_range] at hk
    have hko : k < s.out.length := by omega
    simp [delivered, hlast k hk, hko]

/-- Bytes that leave the sent part of OUT as it is leave what the sink holds of it. -/
theorem delivered_congr {s t : State} (hs : s.sent ≤ s.out.length) (hls : s.mode ≠ .done ∨ s.sent < s.out.length)
    (hsent : t.sent = s.sent) (ht : t.sent ≤ t.out.length) (hlt : t.mode ≠ .done ∨ t.sent < t.out.length)
    (hout : t.out.take s.sent = s.out.take s.sent) : delivered t = delivered s := by
  rw [delivered_of_not_last hs hls, delivered_of_not_last ht hlt, hsent, hout]

theorem delivered_of_sent_zero {s : State} (hs : s.sent = 0) : delivered s = [] := by
  simp [delivered, hs]

/-- A DRAIN delivers the next byte with `out_last` (44_byte_packer_termination.md R191). -/
theorem delivered_transferByte (s : State) :
    delivered (transferByte s) = delivered s ++ [⟨outByte s, outLast s⟩] := by
  simp only [delivered, transferByte_sent, List.range_succ, List.map_append]
  rfl

/-! ## The invariant, effect by effect -/

/-- The host's side of the ports is no part of the invariant. -/
theorem inv_host {s : State} (h : Inv s) (c : List CfgBeat) (p : List PixBeat) (o : Nat) (ts : List Turn) :
    Inv { s with cfgOffers := c, pixOffers := p, outOffers := o, turns := ts } :=
  { h with }

theorem Inv.err_none {s : State} (h : Inv s) (hm : s.mode ≠ .error) : s.err = .none :=
  not_not.1 fun he => hm (h.err_iff_error.1 he)

/-- RESET's state meets the invariant whatever stood before it, the bench being empty (10_state.md R43). -/
theorem inv_resetBlock {s : State} (hb : s.bench = none) : Inv (resetBlock s) where
  err_iff_error := by simp [resetBlock, initCache]
  run_zero_outside _ := rfl
  run_bound := by simp [resetBlock, initCache]
  remain_iff_encoding := by simp [resetBlock, initCache]
  sent_bound := le_rfl
  out_count_agrees := rfl
  slots_hashed h := .inl (allInitial_nil s.cacheInit h)
  cache_canonical := rfl
  channels_legal hm := by cases hm
  alpha_opaque hm := by cases hm
  done_ends hm := by cases hm
  error_queue_empty hm := by cases hm
  sink_agrees := ⟨s.sink, by rw [delivered_of_sent_zero rfl, List.append_nil]; rfl⟩
  bench_empty := hb

theorem inv_afterStart {w h : BitVec 32} {ch : Byte} (cs : BitVec 1) {s : State} (hv : ValidDescriptor w h ch)
    (hb : s.bench = none) : Inv (afterStart w h ch cs s) where
  err_iff_error := by simp [afterStart]
  run_zero_outside _ := rfl
  run_bound := by simp [afterStart]
  remain_iff_encoding := iff_of_true (pixelCount_ne_zero hv.1 hv.2.1) rfl
  sent_bound := Nat.zero_le _
  out_count_agrees := rfl
  slots_hashed h := .inl (allInitial_nil s.cacheInit h)
  cache_canonical := rfl
  channels_legal _ := hv.2.2
  alpha_opaque _ _ := rfl
  done_ends hm := by cases hm
  error_queue_empty hm := by cases hm
  sink_agrees := ⟨s.sink, by rw [delivered_of_sent_zero rfl, List.append_nil]; rfl⟩
  bench_empty := hb

theorem inv_afterBadStart {s : State} (h : Inv s) {e : Err} (he : e ≠ .none) : Inv (afterBadStart e s) where
  err_iff_error := iff_of_true he rfl
  run_zero_outside _ := rfl
  run_bound := by simp [afterBadStart]
  remain_iff_encoding := by simp [afterBadStart]
  sent_bound := le_rfl
  out_count_agrees := rfl
  slots_hashed := h.slots_hashed
  cache_canonical := h.cache_canonical
  channels_legal hm := by cases hm
  alpha_opaque hm := by cases hm
  done_ends hm := by cases hm
  error_queue_empty _ := rfl
  sink_agrees := ⟨s.sink, by rw [delivered_of_sent_zero rfl, List.append_nil]; rfl⟩
  bench_empty := h.bench_empty

theorem sinkFailRaises_iff (s : State) :
    sinkFailRaises s = true ↔ s.mode = .encoding ∨ (s.mode = .done ∧ s.sent < s.out.length) := by
  simp [sinkFailRaises]

/-- Error entry during an encode or while its output is pending (60_exceptions.md R213, R215). -/
theorem inv_raise {s : State} (h : Inv s) {e : Err} (he : e ≠ .none)
    (hp : s.mode ≠ .done ∨ s.sent < s.out.length) : Inv (raise e s) where
  err_iff_error := iff_of_true he rfl
  run_zero_outside _ := rfl
  run_bound := by simp
  remain_iff_encoding := by simp
  sent_bound := by simp [h.sent_bound]
  out_count_agrees := rfl
  slots_hashed := h.slots_hashed
  cache_canonical := h.cache_canonical
  channels_legal hm := by cases hm
  alpha_opaque hm := by cases hm
  done_ends hm := by cases hm
  error_queue_empty _ := by simp [h.sent_bound]
  sink_agrees := by
    have hd : delivered (raise e s) = delivered s :=
      delivered_congr h.sent_bound hp rfl (by simp [h.sent_bound]) (.inl (by simp)) (by simp)
    rw [hd]
    exact h.sink_agrees
  bench_empty := h.bench_empty

theorem outValid_iff (s : State) : outValid s = true ↔ s.sent < s.out.length ∧ s.mode ≠ .error := by
  simp [outValid]

theorem inv_transferByte {s : State} (h : Inv s) (hv : outValid s = true) : Inv (transferByte s) where
  err_iff_error := h.err_iff_error
  run_zero_outside := h.run_zero_outside
  run_bound := h.run_bound
  remain_iff_encoding := h.remain_iff_encoding
  sent_bound := ((outValid_iff s).1 hv).1
  out_count_agrees := h.out_count_agrees
  slots_hashed := h.slots_hashed
  cache_canonical := h.cache_canonical
  channels_legal := h.channels_legal
  alpha_opaque := h.alpha_opaque
  done_ends := h.done_ends
  error_queue_empty hm := absurd hm ((outValid_iff s).1 hv).2
  sink_agrees := by
    obtain ⟨earlier, he⟩ := h.sink_agrees
    exact ⟨earlier, by rw [delivered_transferByte, transferByte_sink, he, List.append_assoc]⟩
  bench_empty := h.bench_empty

/-! ## PIXEL -/

/-- R42.7 said of a cache on its own: every slot is at its START value or holds a pixel that hashes to it. -/
def SlotsHashed (ci : CacheInit) (m : Memory) : Prop :=
  ∀ h : BitVec 6, InitialSlot ci (Memory.read ci m h.toNat) ∨ ∃ q, Memory.read ci m h.toNat = some q ∧ hashOf q = h

/-- A pixel's own token keeps it: the slot written is the pixel's hash (41_color_cache.md R123). -/
theorem Inv.slotsHashed_ownCache {s : State} (h : Inv s) (p : Pixel) : SlotsHashed s.cacheInit (ownCache p s) := by
  intro j
  by_cases hj : j = hashOf p
  · subst hj
    exact .inr ⟨p, ownCache_read_same h.cache_canonical, rfl⟩
  · rw [ownCache_read_other hj]
    exact h.slots_hashed j

/-- In a 3-channel encode Normalise makes every pixel opaque (42_pixel_selector.md R141). -/
theorem normalise_three (pin : Pixel) : (normalise 3 pin).a = 255 := rfl

section
variable {s : State} (p : Pixel) (bytes : List Byte) (run : BitVec 6) (cache : Memory) (hm : s.mode = .encoding)
include hm

theorem afterPixel_mode_encoding_iff : (afterPixel p bytes run cache s).mode = .encoding ↔ s.pixRemain ≠ 1 := by
  by_cases h1 : s.pixRemain = 1 <;> simp [afterPixel, hm, h1]

theorem afterPixel_mode_done_iff : (afterPixel p bytes run cache s).mode = .done ↔ s.pixRemain = 1 := by
  by_cases h1 : s.pixRemain = 1 <;> simp [afterPixel, hm, h1]

theorem afterPixel_mode_ne_error : (afterPixel p bytes run cache s).mode ≠ .error := by
  have hmode : (afterPixel p bytes run cache s).mode = if s.pixRemain = 1 then .done else .encoding := by
    simp [afterPixel, hm]
  rw [hmode]
  split <;> simp

end

theorem lastPixelBytes_of_last {s : State} (h1 : s.pixRemain = 1) : lastPixelBytes s = endMarkerBytes := if_pos h1

/-- A PIXEL adds to the end of OUT, and the last one adds the end marker, so that no byte the sink holds is the stream's
final one (44_byte_packer_termination.md R192, R193). -/
theorem Inv.delivered_afterPixel {s : State} (h : Inv s) (hm : s.mode = .encoding) (p : Pixel) (bytes : List Byte)
    (run : BitVec 6) (cache : Memory) :
    delivered (afterPixel p (bytes ++ lastPixelBytes s) run cache s) = delivered s := by
  have hsent := h.sent_bound
  have hout : (afterPixel p (bytes ++ lastPixelBytes s) run cache s).out.length =
      s.out.length + bytes.length + (lastPixelBytes s).length := by
    simp [afterPixel, Nat.add_assoc]
  refine delivered_congr hsent (.inl (by simp [hm])) rfl (by rw [hout]; exact Nat.le_trans hsent (by omega)) ?_ ?_
  · by_cases h1 : s.pixRemain = 1
    · right
      rw [hout, lastPixelBytes_of_last h1]
      exact Nat.lt_of_le_of_lt hsent (by simp [endMarkerBytes]; omega)
    · exact .inl fun hd => h1 ((afterPixel_mode_done_iff _ _ _ _ hm).1 hd)
  · exact List.take_append_of_le_length hsent

/-- A PIXEL's writes keep the invariant: the last pixel (PIX_REMAIN = 1) ends the encode with no run pending and the
end marker at the end of OUT (42_pixel_selector.md R148). -/
theorem inv_afterPixel {s : State} (h : Inv s) (hm : s.mode = .encoding) {p : Pixel} {run : BitVec 6} {cache : Memory}
    (bytes : List Byte) (hp : s.descCh = 3 → p.a = 255) (hrun : run.toNat ≤ 61) (hlast : s.pixRemain = 1 → run = 0)
    (hslots : SlotsHashed s.cacheInit cache) (hwf : Memory.wf s.cacheInit cache = true) :
    Inv (afterPixel p (bytes ++ lastPixelBytes s) run cache s) where
  err_iff_error := iff_of_false (not_not.2 (h.err_none (by simp [hm]))) (afterPixel_mode_ne_error _ _ _ _ hm)
  run_zero_outside hn := hlast (not_not.1 (mt (afterPixel_mode_encoding_iff _ _ _ _ hm).2 hn))
  run_bound := hrun
  remain_iff_encoding := (not_congr (last_iff _)).trans (afterPixel_mode_encoding_iff _ _ _ _ hm).symm
  sent_bound := Nat.le_trans h.sent_bound (by simp [afterPixel])
  out_count_agrees := by simp [afterPixel, h.out_count_agrees, BitVec.ofNat_add]
  slots_hashed := hslots
  cache_canonical := hwf
  channels_legal _ := h.channels_legal hm
  alpha_opaque _ := hp
  done_ends hd := by
    have h1 := (afterPixel_mode_done_iff _ _ _ _ hm).1 hd
    exact ⟨s.out ++ bytes, by rw [← lastPixelBytes_of_last h1, List.append_assoc]; rfl⟩
  error_queue_empty he := absurd he (afterPixel_mode_ne_error _ _ _ _ hm)
  sink_agrees := by
    rw [h.delivered_afterPixel hm]
    exact h.sink_agrees
  bench_empty := h.bench_empty

/-- A PIXEL that is taken keeps the invariant, whether it joins the run or gets its own token. -/
theorem inv_pixelStep {s : State} (h : Inv s) (hm : s.mode = .encoding) (pin : Pixel) :
    Inv (pixelStep (normalise s.descCh pin) s) := by
  have hp : s.descCh = 3 → (normalise s.descCh pin).a = 255 := fun h3 => by rw [h3, normalise_three]
  obtain ⟨-, bytes, run, hstep, hrun, hlast⟩ | ⟨-, hstep⟩ := pixelStep_cases (p := normalise s.descCh pin) h.run_bound
  · rw [hstep]
    exact inv_afterPixel h hm bytes hp hrun hlast h.slots_hashed h.cache_canonical
  · rw [hstep]
    exact inv_afterPixel h hm _ hp (by simp) (fun _ => rfl) (h.slotsHashed_ownCache _) (ownCache_wf h.cache_canonical)

/-! ## Every command and every step -/

/-- Every command keeps the invariant. -/
theorem inv_exec {i : Instr} {s t : State} (h : Inv s) (hc : i.isCommand = true) (hx : exec i s = .next t) : Inv t := by
  cases ExecEffect.of_exec hx with
  | held _ => exact h
  | startValid _ hv => exact inv_afterStart _ hv h.bench_empty
  | startBad _ he => exact inv_afterBadStart h (descriptorError_ne he)
  | pixel hm => exact inv_pixelStep h hm _
  | drain hv => exact inv_transferByte h hv
  | sinkfailIgnored _ => exact h
  | sinkfail hr =>
    refine inv_raise h (by decide) ?_
    obtain hm | ⟨-, hlt⟩ := (sinkFailRaises_iff s).1 hr
    · exact .inl (by simp [hm])
    · exact .inr hlt
  | reset => exact inv_resetBlock h.bench_empty
  | unit hu => simp [hu] at hc
  | headerBad _ => cases hc

/-- With no unit on the bench what reaches the block is a command (log entry 4). -/
theorem isCommand_of_nextBeat {s : State} {b : Beat} {i : Instr} (hb : s.bench = none) (hn : nextBeat s = some b)
    (hd : decode b = .ok i) : i.isCommand = true := by
  cases b with
  | outUnit bs =>
    simp only [nextBeat, hb] at hn
    split at hn <;> simp at hn
  | cfg _ => cases hd; rfl
  | pix _ => cases hd; rfl
  | outReady => cases hd; rfl
  | sinkErr => cases hd; rfl
  | rst => cases hd; rfl

theorem inv_accept {s : State} (h : Inv s) {i : Instr} {b : Beat} (hn : nextBeat s = some b) : Inv (accept i b s) := by
  obtain ⟨c, p, o, ts, ha⟩ := accept_host (i := i) h.bench_empty hn
  rw [ha]
  exact inv_host h c p o ts

/-- Settles O43: a step passes a turn or runs a command, and either keeps the invariant. -/
theorem stepKeepsInvariant : Obligations.StepKeepsInvariant := by
  intro s t h hs
  obtain ⟨-, hstep⟩ | ⟨_, _, -, -, hstep⟩ | ⟨b, i, hn, hd, hstep⟩ := step_cases s
  · rw [hstep] at hs
    cases hs
    exact inv_host h _ _ _ _
  · rw [hstep] at hs
    cases hs
  · rw [hstep] at hs
    exact inv_exec (inv_accept h hn) (isCommand_of_nextBeat h.bench_empty hn hd) hs

/-- Settles O42: the state after RESET is what RESET leaves of itself. -/
theorem resetStateMeetsInvariant : Obligations.ResetStateMeetsInvariant := inv_resetBlock (s := State.reset) rfl

end Sys2Proof.Machine
end

section
/-! Who writes MODE and the descriptor latches, what STATUS reads, and which state a step runs its command on. -/

namespace Sys2Proof.Machine

/-! ## Writers -/

/-- Settles O47: of the effects, those that write MODE are the ones listed. -/
theorem modeWriters : Obligations.ModeWriters := by
  intro i s t hx hne
  cases ExecEffect.of_exec hx with
  | held _ => exact absurd rfl hne
  | startValid _ hv => exact .inl ⟨_, _, _, _, rfl, hv, rfl⟩
  | startBad _ he =>
    exact .inr (.inr (.inr (.inl ⟨rfl, descriptorError_ne he,
      .inl ⟨_, _, _, _, .inl rfl, not_validDescriptor_of_error he⟩⟩)))
  | pixel hm =>
    rw [pixelStep_mode] at hne ⊢
    by_cases h1 : s.pixRemain = 1
    · exact .inr (.inl ⟨_, _, _, _, rfl, hm, h1, if_pos h1⟩)
    · exact absurd (if_neg h1) hne
  | drain _ => exact absurd rfl hne
  | sinkfailIgnored _ => exact absurd rfl hne
  | sinkfail _ => exact .inr (.inr (.inr (.inl ⟨rfl, by simp, .inr rfl⟩)))
  | reset => exact .inr (.inr (.inr (.inr ⟨rfl, rfl⟩)))
  | unit _ =>
    have hi : i = .endMarker := by
      by_contra hi
      exact hne (modeAfterUnit_of_ne_endMarker hi s)
    subst hi
    exact .inr (.inr (.inl ⟨rfl, rfl⟩))
  | headerBad he =>
    exact .inr (.inr (.inr (.inl ⟨rfl, descriptorError_ne he,
      .inl ⟨_, _, _, _, .inr rfl, not_validDescriptor_of_error he⟩⟩)))

/-- A PIXEL step leaves the descriptor latches (10_state.md R32). -/
theorem pixelStep_descriptor (p : Pixel) (s : State) :
    (pixelStep p s).descW = s.descW ∧ (pixelStep p s).descH = s.descH ∧ (pixelStep p s).descCh = s.descCh ∧
      (pixelStep p s).descCs = s.descCs := by
  obtain ⟨bytes, run, cache, h⟩ := pixelStep_after p s
  rw [h]
  exact ⟨rfl, rfl, rfl, rfl⟩

/-- Settles O48: of the effects, those that write DESC_* are an accepted valid START and RESET. -/
theorem descriptorWriters : Obligations.DescriptorWriters := by
  intro i s t hx
  cases ExecEffect.of_exec hx with
  | held _ => exact .inl ⟨rfl, rfl, rfl, rfl⟩
  | startValid _ hv => exact .inr (.inl ⟨_, _, _, _, rfl, hv, rfl, rfl, rfl, rfl⟩)
  | startBad _ _ => exact .inl ⟨rfl, rfl, rfl, rfl⟩
  | pixel _ => exact .inl (pixelStep_descriptor _ s)
  | drain _ => exact .inl ⟨rfl, rfl, rfl, rfl⟩
  | sinkfailIgnored _ => exact .inl ⟨rfl, rfl, rfl, rfl⟩
  | sinkfail _ => exact .inl ⟨rfl, rfl, rfl, rfl⟩
  | reset => exact .inr (.inr ⟨rfl, rfl, rfl, rfl, rfl⟩)
  | unit _ => exact .inl ⟨rfl, rfl, rfl, rfl⟩
  | headerBad _ => exact .inl ⟨rfl, rfl, rfl, rfl⟩

/-! ## The state after RESET, and STATUS -/

/-- Settles O38: each value is RESET's own, and an unlisted slot reads (0,0,0,0) under ZERO. -/
theorem resetStateValues : Obligations.ResetStateValues :=
  ⟨rfl, rfl, rfl, rfl, rfl, rfl, rfl, rfl, rfl, rfl, rfl, rfl, rfl, rfl, rfl, allInitial_nil .zero, fun _ => rfl⟩

/-- Outside ERROR the upper bits of STATUS are 0 (10_state.md R31). -/
theorem Inv.status_of_not_error {s : State} (h : Inv s) (hm : s.mode ≠ .error) :
    status s = (0 : BitVec 2) ++ s.mode.code := by
  rw [status, h.err_none hm]
  rfl

/-- Settles O39: ERR is NONE outside ERROR, and one of the three errors in it. -/
theorem statusIsErrAndMode : Obligations.StatusIsErrAndMode := by
  intro s h
  refine ⟨fun hm => ?_, fun hm => ?_, fun hm => ?_, fun hm => ?_⟩
  · rw [h.status_of_not_error (by simp [hm]), hm]; rfl
  · rw [h.status_of_not_error (by simp [hm]), hm]; rfl
  · rw [h.status_of_not_error (by simp [hm]), hm]; rfl
  · have he := h.err_iff_error.2 hm
    rw [status, hm]
    cases hs : s.err with
    | none => exact absurd hs he
    | invalidDimensions => exact .inl ⟨rfl, rfl⟩
    | unsupportedChannelCount => exact .inr (.inl ⟨rfl, rfl⟩)
    | sinkFailure => exact .inr (.inr ⟨rfl, rfl⟩)

/-! ## What a step runs -/

theorem step_of_nextBeat {s : State} {b : Beat} {i : Instr} (hn : nextBeat s = some b) (hd : decode b = .ok i) :
    step s = exec i (accept i b s) := by
  simp only [step, hn, hd]

theorem step_of_nextBeat_none {s : State} (hn : nextBeat s = none) : step s = .next (passTurn s) := by
  simp only [step, hn]

theorem passTurn_of_turns {s : State} {t : Turn} {ts : List Turn} (ht : s.turns = t :: ts) :
    passTurn s = { s with turns := ts } := by
  simp [passTurn, ht]

theorem passTurn_of_turns_nil {s : State} (ht : s.turns = []) : passTurn s = s := by
  have htail : s.turns.tail = s.turns := by simp [ht]
  rw [passTurn, htail]

/-- An output unit is taken off the bench before it runs (log entry 4). -/
theorem step_of_bench {s : State} {bytes : List Byte} {i : Instr} (hb : s.bench = some bytes)
    (hd : decode (.outUnit bytes) = .ok i) : step s = exec i { s with bench := none } := by
  have hn : nextBeat s = some (.outUnit bytes) := by simp [nextBeat, hb]
  rw [step_of_nextBeat hn hd, accept, if_pos (enabled_of_not_isCommand (decodeUnit_isCommand hd) s)]
  rfl

section
variable {s : State} {ts : List Turn} (hb : s.bench = none)
include hb

theorem nextBeat_cfg (ht : s.turns = .cfg :: ts) : nextBeat s = s.cfgOffers.head?.map .cfg := by
  simp [nextBeat, hb, ht]

theorem nextBeat_pix (ht : s.turns = .pix :: ts) : nextBeat s = s.pixOffers.head?.map .pix := by
  simp [nextBeat, hb, ht]

theorem nextBeat_out (ht : s.turns = .out :: ts) :
    nextBeat s = if s.outOffers = 0 then none else some .outReady := by
  simp [nextBeat, hb, ht]

theorem nextBeat_sinkErr (ht : s.turns = .sinkErr :: ts) : nextBeat s = some .sinkErr := by
  simp [nextBeat, hb, ht]

theorem nextBeat_rst (ht : s.turns = .rst :: ts) : nextBeat s = some .rst := by
  simp [nextBeat, hb, ht]

theorem nextBeat_of_turns_nil (ht : s.turns = []) : nextBeat s = none := by
  simp [nextBeat, hb, ht]

end

/-- Settles O40: channel by channel, what reaches the block next and what taking or holding it leaves. -/
theorem stepRunsDecodedCommand : Obligations.StepRunsDecodedCommand := by
  intro s i ts
  refine ⟨fun b bs hb ht ho hd => ?_, fun b bs hb ht ho hd => ?_, fun n hb ht ho => ?_, fun hb ht => ?_,
    fun hb ht => ?_, fun bytes hb hd => step_of_bench hb hd⟩
  · rw [step_of_nextBeat (by rw [nextBeat_cfg hb ht, ho]; rfl) hd, accept, passTurn_of_turns ht]
    simp [takeBeat, ht, ho]
  · rw [step_of_nextBeat (by rw [nextBeat_pix hb ht, ho]; rfl) hd, accept, passTurn_of_turns ht]
    simp [takeBeat, ht, ho]
  · rw [step_of_nextBeat (by rw [nextBeat_out hb ht, if_neg (by omega)]) rfl, accept, passTurn_of_turns ht]
    simp [takeBeat, ht, ho, enabled]
  · rw [step_of_nextBeat (nextBeat_sinkErr hb ht) rfl, accept, passTurn_of_turns ht]
    simp [takeBeat, ht]
  · rw [step_of_nextBeat (nextBeat_rst hb ht) rfl, accept, passTurn_of_turns ht]
    simp [takeBeat, ht]

/-- Settles O41: with nothing offered no beat reaches the block, and only the turn passes. -/
theorem stepWaitsWithoutOffer : Obligations.StepWaitsWithoutOffer := by
  intro s hb
  refine ⟨fun ht => ?_, fun ts ht ho => ?_, fun ts ht ho => ?_, fun ts ht ho => ?_⟩
  · rw [step_of_nextBeat_none (nextBeat_of_turns_nil hb ht), passTurn_of_turns_nil ht]
  · rw [step_of_nextBeat_none (by rw [nextBeat_cfg hb ht, ho]; rfl), passTurn_of_turns ht]
  · rw [step_of_nextBeat_none (by rw [nextBeat_pix hb ht, ho]; rfl), passTurn_of_turns ht]
  · rw [step_of_nextBeat_none (by rw [nextBeat_out hb ht, if_pos ho]), passTurn_of_turns ht]

end Sys2Proof.Machine
end

section
/-! What every instruction leaves of the stream: the sink's record, and the bytes of OUT already delivered. -/

namespace Sys2Proof.Machine

/-- A PIXEL step only appends to OUT, and delivers nothing (42_pixel_selector.md R150). -/
theorem pixelStep_stream (p : Pixel) (s : State) :
    s.out <+: (pixelStep p s).out ∧ (pixelStep p s).sent = s.sent ∧ (pixelStep p s).sink = s.sink := by
  obtain ⟨bytes, run, cache, h⟩ := pixelStep_after p s
  rw [h]
  exact ⟨List.prefix_append .., rfl, rfl⟩

/-- DRAIN alone writes the sink's record, by one transfer (44_byte_packer_termination.md R191). -/
theorem ExecEffect.sink_cases {i : Instr} {s t : State} (he : ExecEffect i s t) :
    t.sink = s.sink ∨ (i = .drain ∧ t.sink = s.sink ++ [⟨outByte s, outLast s⟩]) := by
  cases he with
  | drain _ => exact .inr ⟨rfl, transferByte_sink s⟩
  | pixel _ => exact .inl (pixelStep_stream _ s).2.2
  | held _ => exact .inl rfl
  | startValid _ _ => exact .inl rfl
  | startBad _ _ => exact .inl rfl
  | sinkfailIgnored _ => exact .inl rfl
  | sinkfail _ => exact .inl rfl
  | reset => exact .inl rfl
  | unit _ => exact .inl rfl
  | headerBad _ => exact .inl rfl

/-- Outside START and RESET the bytes OUT[0..SENT) stay: an effect appends to OUT, or cuts it at SENT on error entry
(60_exceptions.md R215). -/
theorem ExecEffect.keeps_delivered {i : Instr} {s t : State} (he : ExecEffect i s t)
    (hstart : ∀ w h ch cs, i ≠ .start w h ch cs) (hreset : i ≠ .reset) :
    s.out.take s.sent <+: t.out ∧ s.sent ≤ t.sent := by
  have hkept : s.out.take s.sent <+: s.out := List.take_prefix ..
  cases he with
  | held _ => exact ⟨hkept, le_rfl⟩
  | startValid _ _ => exact absurd rfl (hstart _ _ _ _)
  | startBad _ _ => exact absurd rfl (hstart _ _ _ _)
  | pixel _ =>
    obtain ⟨hout, hsent, -⟩ := pixelStep_stream _ s
    exact ⟨hkept.trans hout, hsent.ge⟩
  | drain _ => exact ⟨hkept, Nat.le_succ _⟩
  | sinkfailIgnored _ => exact ⟨hkept, le_rfl⟩
  | sinkfail _ => exact ⟨List.prefix_rfl, le_rfl⟩
  | reset => exact absurd rfl hreset
  | unit _ => exact ⟨hkept.trans (List.prefix_append ..), le_rfl⟩
  | headerBad _ => exact ⟨List.prefix_rfl, le_rfl⟩

/-- Settles O44: every effect leaves the sink's record or appends one transfer, and keeps what was delivered. -/
theorem sinkStreamIsAppendOnly : Obligations.SinkStreamIsAppendOnly := by
  intro i s t hx
  have he := ExecEffect.of_exec hx
  have hsink : s.sink <+: t.sink ∧ t.sink.length ≤ s.sink.length + 1 := by
    obtain hs | ⟨-, hs⟩ := he.sink_cases
    · rw [hs]; exact ⟨List.prefix_rfl, Nat.le_succ _⟩
    · rw [hs]; exact ⟨List.prefix_append .., List.length_append.le⟩
  exact ⟨hsink.1, hsink.2, he.keeps_delivered⟩

end Sys2Proof.Machine
end

section
/-! The encoding of every instruction and its reading (30_encoding.md): the fields of each layout, one equation of the
decoder per first byte of a token, and the two directions of the round trip. -/

namespace Sys2Proof

/-! ## Fields -/

/-- A field of a word, by value: 30_encoding.md gives a field's place by its lowest bit. -/
theorem extractLsb'_eq_ofNat_div {n : Nat} (start len : Nat) (x : BitVec n) :
    x.extractLsb' start len = BitVec.ofNat len (x.toNat / 2 ^ start) := by
  rw [BitVec.extractLsb', Nat.shiftRight_eq_div_pow]

/-- A byte's two tag bits, by value (30_encoding.md R74). -/
theorem tag_eq_iff (b : Byte) (k : BitVec 2) : b.extractLsb' 6 2 = k ↔ b.toNat / 64 = k.toNat := by
  have hb : b.toNat < 256 := b.isLt
  rw [← BitVec.toNat_inj, extractLsb'_eq_ofNat_div, BitVec.toNat_ofNat, Nat.mod_eq_of_lt (by omega)]
  rfl

/-- A byte is its tag bits and its 6-bit field. -/
theorem tag_append_field {b : Byte} {k : BitVec 2} (hk : b.extractLsb' 6 2 = k) :
    (k ++ b.extractLsb' 0 6 : BitVec 8) = b := by
  rw [← hk]
  exact BitVec.extractLsb'_append_extractLsb' (w := 2) (len := 6)

/-- The fields of OP_DIFF's byte (30_encoding.md R74). -/
theorem tag_append_diff {b : Byte} {k : BitVec 2} (hk : b.extractLsb' 6 2 = k) :
    (k ++ b.extractLsb' 4 2 ++ b.extractLsb' 2 2 ++ b.extractLsb' 0 2 : BitVec 8) = b := by
  rw [← hk]
  simp (disch := rfl) only [BitVec.extractLsb'_append_extractLsb'_eq_extractLsb', BitVec.extractLsb'_eq_self]

/-- A big-endian word read from its bytes (20_memory.md R52). -/
theorem ofBe32_fields (v : BitVec 32) :
    ofBe32 (v.extractLsb' 24 8) (v.extractLsb' 16 8) (v.extractLsb' 8 8) (v.extractLsb' 0 8) = v := by
  simp (disch := rfl) only [ofBe32, BitVec.extractLsb'_append_extractLsb'_eq_extractLsb', BitVec.extractLsb'_eq_self]

theorem be32_ofBe32 (b3 b2 b1 b0 : Byte) : be32 (ofBe32 b3 b2 b1 b0) = [b3, b2, b1, b0] := by
  simp (disch := decide) only [be32, ofBe32, BitVec.extractLsb'_append_eq_of_le, BitVec.extractLsb'_append_eq_right,
    Nat.reduceSub, BitVec.extractLsb'_eq_self]

/-- `zext_8(DESC_CS)` is a byte whose upper seven bits are 0 (30_encoding.md R71). -/
theorem zero_append_bit {b : Byte} (hb : b.extractLsb' 1 7 = 0#7) : (0#7 ++ b.extractLsb' 0 1 : BitVec 8) = b := by
  rw [← hb]
  exact BitVec.extractLsb'_append_extractLsb' (w := 7) (len := 1)

/-! ## The beats of the two input channels -/

theorem decodeStart_append (w h : BitVec 32) (ch : Byte) (cs : BitVec 1) :
    decodeStart (w ++ h ++ ch ++ cs : BitVec 73) = .start w h ch cs := by
  simp (disch := decide) only [decodeStart, BitVec.extractLsb'_append_eq_of_le, BitVec.extractLsb'_append_eq_right,
    Nat.reduceSub, BitVec.extractLsb'_eq_self]

theorem decodePixel_append (r g b a : Byte) : decodePixel (r ++ g ++ b ++ a : BitVec 32) = .pixel r g b a := by
  simp (disch := decide) only [decodePixel, BitVec.extractLsb'_append_eq_of_le, BitVec.extractLsb'_append_eq_right,
    Nat.reduceSub, BitVec.extractLsb'_eq_self]

/-- A START beat has no bit outside its four fields (30_encoding.md R79). -/
theorem encode_decodeStart (b : CfgBeat) : encode (decodeStart b) = .cfg b := by
  simp (disch := rfl) only [decodeStart, encode, BitVec.extractLsb'_append_extractLsb'_eq_extractLsb',
    BitVec.extractLsb'_eq_self]

/-- A PIXEL beat has no bit outside its four channels (30_encoding.md R80). -/
theorem encode_decodePixel (b : PixBeat) : encode (decodePixel b) = .pix b := by
  simp (disch := rfl) only [decodePixel, encode, BitVec.extractLsb'_append_extractLsb'_eq_extractLsb',
    BitVec.extractLsb'_eq_self]

/-! ## The token decoder, by first byte -/

theorem decodeToken_opRgb (r g b : Byte) (rest : List Byte) :
    decodeToken (0xFE :: r :: g :: b :: rest) = .ok (.opRgb r g b, rest) := rfl

theorem decodeToken_opRgba (r g b a : Byte) (rest : List Byte) :
    decodeToken (0xFF :: r :: g :: b :: a :: rest) = .ok (.opRgba r g b a, rest) := rfl

/-- The two 8-bit tags have the run's tag bits, so the other three tags are never tested against them
(30_encoding.md R76). -/
theorem ne_byteTags_of_tag {b : Byte} {k : BitVec 2} (hb : b.extractLsb' 6 2 = k) (hk : k ≠ 0b11) :
    b ≠ 0xFE ∧ b ≠ 0xFF := by
  subst hb
  exact ⟨by rintro rfl; exact hk (by decide), by rintro rfl; exact hk (by decide)⟩

section
variable {b0 : Byte} (rest : List Byte)

theorem decodeToken_opIndex (hb : b0.extractLsb' 6 2 = 0b00) :
    decodeToken (b0 :: rest) = .ok (.opIndex (b0.extractLsb' 0 6), rest) := by
  obtain ⟨hfe, hff⟩ := ne_byteTags_of_tag hb (by decide)
  exact (if_neg hfe).trans ((if_neg hff).trans (if_pos hb))

theorem decodeToken_opDiff (hb : b0.extractLsb' 6 2 = 0b01) :
    decodeToken (b0 :: rest) =
      .ok (.opDiff (b0.extractLsb' 4 2) (b0.extractLsb' 2 2) (b0.extractLsb' 0 2), rest) := by
  obtain ⟨hfe, hff⟩ := ne_byteTags_of_tag hb (by decide)
  have h0 : b0.extractLsb' 6 2 ≠ 0b00 := by rw [hb]; decide
  exact (if_neg hfe).trans ((if_neg hff).trans ((if_neg h0).trans (if_pos hb)))

theorem decodeToken_opLuma (hb : b0.extractLsb' 6 2 = 0b10) (b1 : Byte) :
    decodeToken (b0 :: b1 :: rest) =
      .ok (.opLuma (b0.extractLsb' 0 6) (b1.extractLsb' 4 4) (b1.extractLsb' 0 4), rest) := by
  obtain ⟨hfe, hff⟩ := ne_byteTags_of_tag hb (by decide)
  have h0 : b0.extractLsb' 6 2 ≠ 0b00 := by rw [hb]; decide
  have h1 : b0.extractLsb' 6 2 ≠ 0b01 := by rw [hb]; decide
  exact (if_neg hfe).trans ((if_neg hff).trans ((if_neg h0).trans ((if_neg h1).trans (if_pos hb))))

theorem decodeToken_opRun (hb : b0.extractLsb' 6 2 = 0b11) (hfe : b0 ≠ 0xFE) (hff : b0 ≠ 0xFF) :
    decodeToken (b0 :: rest) = .ok (.opRun (b0.extractLsb' 0 6), rest) := by
  have h0 : b0.extractLsb' 6 2 ≠ 0b00 := by rw [hb]; decide
  have h1 : b0.extractLsb' 6 2 ≠ 0b01 := by rw [hb]; decide
  have h2 : b0.extractLsb' 6 2 ≠ 0b10 := by rw [hb]; decide
  exact (if_neg hfe).trans ((if_neg hff).trans ((if_neg h0).trans ((if_neg h1).trans (if_neg h2))))

end

/-- The fourth tag is what is left of the four (30_encoding.md R74). -/
theorem tag_eq_run {k : BitVec 2} (h0 : k ≠ 0b00) (h1 : k ≠ 0b01) (h2 : k ≠ 0b10) : k = 0b11 := by
  revert k
  decide

/-- With FE and FF tested first, a run's field is at most 61 (30_encoding.md R76, R77). -/
theorem runFieldOk_of_tag {b : Byte} (hb : b.extractLsb' 6 2 = 0b11) (hfe : b ≠ 0xFE) (hff : b ≠ 0xFF) :
    runFieldOk (b.extractLsb' 0 6) = true := by
  revert b
  decide

/-! ## Reading back what was encoded -/

/-- A run's byte is an 8-bit tag exactly where its field is 62 or 63 (30_encoding.md R77). -/
theorem run_ne_byteTags {l : BitVec 6} (hl : runFieldOk l = true) :
    (0b11#2 ++ l : BitVec 8) ≠ 0xFE ∧ (0b11#2 ++ l : BitVec 8) ≠ 0xFF := by
  revert l
  decide

/-- A token's bytes are read back as the token, whatever follows them (30_encoding.md R74, R76). -/
theorem decodeToken_unitBytes {i : Instr} (ht : i.isToken = true) (hw : i.wellFormed = true) (rest : List Byte) :
    decodeToken (unitBytes i ++ rest) = .ok (i, rest) := by
  cases i with
  | opIndex idx =>
    refine (decodeToken_opIndex rest BitVec.extractLsb'_append_eq_left).trans ?_
    rw [BitVec.extractLsb'_append_eq_right]
  | opDiff r g b =>
    have htag : (0b01#2 ++ r ++ g ++ b : BitVec 8).extractLsb' 6 2 = 0b01#2 := by
      simp (disch := decide) only [BitVec.extractLsb'_append_eq_of_le, Nat.reduceSub, BitVec.extractLsb'_eq_self]
    refine (decodeToken_opDiff rest htag).trans ?_
    simp (disch := decide) only [BitVec.extractLsb'_append_eq_of_le, BitVec.extractLsb'_append_eq_right,
      Nat.reduceSub]
  | opLuma g r b =>
    refine (decodeToken_opLuma rest BitVec.extractLsb'_append_eq_left _).trans ?_
    rw [BitVec.extractLsb'_append_eq_right, BitVec.extractLsb'_append_eq_left, BitVec.extractLsb'_append_eq_right]
  | opRun l =>
    obtain ⟨hfe, hff⟩ := run_ne_byteTags hw
    refine (decodeToken_opRun rest BitVec.extractLsb'_append_eq_left hfe hff).trans ?_
    rw [BitVec.extractLsb'_append_eq_right]
  | opRgb r g b => exact decodeToken_opRgb r g b rest
  | opRgba r g b a => exact decodeToken_opRgba r g b a rest
  | header _ _ _ _ => cases ht
  | endMarker => cases ht
  | start _ _ _ _ => cases ht
  | pixel _ _ _ _ => cases ht
  | drain => cases ht
  | sinkfail => cases ht
  | reset => cases ht

/-- A header's 14 bytes are read back as its fields (30_encoding.md R71, R72). -/
theorem decodeHeader_headerBytes (w h : BitVec 32) (c : Byte) (cs : BitVec 1) :
    decodeHeader (headerBytes w h c cs) = .ok (.header w h c cs) := by
  have hcs : (0#7 ++ cs : BitVec 8).extractLsb' 1 7 = 0 := BitVec.extractLsb'_append_eq_left
  simp only [headerBytes, magicBytes, be32, List.cons_append, List.nil_append, decodeHeader, hcs, ofBe32_fields,
    BitVec.extractLsb'_append_eq_right, and_self, not_true_eq_false, if_false]

/-- An output unit is carried by its bytes. -/
theorem encode_of_not_isCommand {i : Instr} (hc : i.isCommand = false) : encode i = .outUnit (unitBytes i) := by
  revert hc
  cases i <;> simp [Instr.isCommand, unitBytes, encode]

/-- A token's length tells it from the end marker and the header (30_encoding.md R71, R73, R74). -/
theorem decodeUnit_unitBytes {i : Instr} (ht : i.isToken = true) (hw : i.wellFormed = true) :
    decodeUnit (unitBytes i) = .ok i := by
  have hlen := Machine.unitBytes_length_of_isToken ht
  have hd := decodeToken_unitBytes ht hw []
  rw [List.append_nil] at hd
  rw [decodeUnit, if_neg (fun h => by simp [h] at hlen), if_neg (fun h => by simp [h] at hlen), decodeOneToken, hd]

theorem decode_encode_of_isToken {i : Instr} (ht : i.isToken = true) (hw : i.wellFormed = true) :
    decode (encode i) = .ok i := by
  rw [encode_of_not_isCommand (Machine.isCommand_of_isToken ht)]
  exact decodeUnit_unitBytes ht hw

/-- Settles O1: tokens by their first byte, the header and the beats by their fields. -/
theorem decodeEncodeRoundTrip : Obligations.DecodeEncodeRoundTrip := by
  intro i hw
  cases i with
  | opIndex _ => exact decode_encode_of_isToken rfl hw
  | opDiff _ _ _ => exact decode_encode_of_isToken rfl hw
  | opLuma _ _ _ => exact decode_encode_of_isToken rfl hw
  | opRun _ => exact decode_encode_of_isToken rfl hw
  | opRgb _ _ _ => exact decode_encode_of_isToken rfl hw
  | opRgba _ _ _ _ => exact decode_encode_of_isToken rfl hw
  | header w h c cs => exact decodeHeader_headerBytes w h c cs
  | endMarker => rfl
  | start w h ch cs => exact congrArg Except.ok (decodeStart_append w h ch cs)
  | pixel r g b a => exact congrArg Except.ok (decodePixel_append r g b a)
  | drain => rfl
  | sinkfail => rfl
  | reset => rfl

/-! ## Encoding what was read -/

/-- What the token decoder reads is a well-formed token, and the bytes it took are that token's
(30_encoding.md R74, R76, R77). -/
theorem decodeToken_sound {bs rest : List Byte} {i : Instr} (hd : decodeToken bs = .ok (i, rest)) :
    i.wellFormed = true ∧ bs = unitBytes i ++ rest := by
  unfold decodeToken at hd
  split at hd
  · cases hd
  · rename_i b0 tl
    split at hd
    · subst b0
      split at hd <;> cases hd
      exact ⟨rfl, rfl⟩
    · split at hd
      · subst b0
        split at hd <;> cases hd
        exact ⟨rfl, rfl⟩
      · split at hd
        · cases hd
          exact ⟨rfl, congrArg (· :: rest) (tag_append_field ‹_›).symm⟩
        · split at hd
          · cases hd
            exact ⟨rfl, congrArg (· :: rest) (tag_append_diff ‹_›).symm⟩
          · split at hd
            · split at hd <;> cases hd
              rename_i b1
              have hb1 : (b1.extractLsb' 4 4 ++ b1.extractLsb' 0 4 : BitVec 8) = b1 :=
                BitVec.extractLsb'_append_extractLsb' (w := 4) (len := 4)
              exact ⟨rfl, congrArg₂ (· :: · :: rest) (tag_append_field ‹_›).symm hb1.symm⟩
            · cases hd
              have hrun := tag_eq_run (k := b0.extractLsb' 6 2) ‹_› ‹_› ‹_›
              exact ⟨runFieldOk_of_tag hrun ‹_› ‹_›, congrArg (· :: rest) (tag_append_field hrun).symm⟩

theorem decodeOneToken_sound {bs : List Byte} {i : Instr} (hd : decodeOneToken bs = .ok i) :
    i.wellFormed = true ∧ bs = unitBytes i := by
  unfold decodeOneToken at hd
  split at hd
  · cases hd
  · rename_i ht
    cases hd
    simpa using decodeToken_sound ht
  · cases hd

theorem decodeHeader_sound {bs : List Byte} {i : Instr} (hd : decodeHeader bs = .ok i) : bs = unitBytes i := by
  unfold decodeHeader at hd
  split at hd
  · split at hd
    · cases hd
    · split at hd
      · cases hd
      · rename_i hm hcs
        cases hd
        obtain ⟨rfl, rfl, rfl, rfl⟩ := not_not.1 hm
        simp only [unitBytes, encode, headerBytes, be32_ofBe32, zero_append_bit (not_not.1 hcs)]
        rfl
  · split at hd <;> cases hd

theorem decodeEndMarker_sound {bs : List Byte} {i : Instr} (hd : decodeEndMarker bs = .ok i) : bs = unitBytes i := by
  unfold decodeEndMarker at hd
  split at hd <;> cases hd
  assumption

theorem decodeUnit_sound {bs : List Byte} {i : Instr} (hd : decodeUnit bs = .ok i) : bs = unitBytes i := by
  unfold decodeUnit at hd
  split at hd
  · exact decodeHeader_sound hd
  · split at hd
    · exact decodeEndMarker_sound hd
    · exact (decodeOneToken_sound hd).2

/-- Settles O2: what is read from a beat or a unit keeps all its bits. -/
theorem decodedBeatReencodes : Obligations.DecodedBeatReencodes := by
  intro b i hd
  cases b with
  | cfg b => cases hd; exact encode_decodeStart b
  | pix b => cases hd; exact encode_decodePixel b
  | outReady => cases hd; rfl
  | sinkErr => cases hd; rfl
  | rst => cases hd; rfl
  | outUnit bs => rw [encode_of_not_isCommand (Machine.decodeUnit_isCommand hd), ← decodeUnit_sound hd]

/-- Settles O3: the ten words are closed, and the decoder is run on each. -/
theorem specWordsDecode : Obligations.SpecWordsDecode := by
  unfold Obligations.SpecWordsDecode
  decide

/-- Settles O4: the six ranges of the first byte are the two 8-bit tags and the four 2-bit ones, and a field's value is
the byte's divided by its lowest bit's. -/
theorem firstByteTellsToken : Obligations.FirstByteTellsToken := by
  intro b0 tl
  refine ⟨?_, ?_, fun hlt => ?_, fun hle hlt => ?_, fun hle hlt b1 => ?_, fun hle hlt => ?_⟩
  · rintro rfl r g b
    exact decodeToken_opRgb r g b tl
  · rintro rfl r g b a
    exact decodeToken_opRgba r g b a tl
  · rw [decodeToken_opIndex tl ((tag_eq_iff b0 _).2 (by simp; omega))]
    simp [extractLsb'_eq_ofNat_div]
  · rw [decodeToken_opDiff tl ((tag_eq_iff b0 _).2 (by simp; omega))]
    simp [extractLsb'_eq_ofNat_div]
  · rw [decodeToken_opLuma tl ((tag_eq_iff b0 _).2 (by simp; omega))]
    simp [extractLsb'_eq_ofNat_div]
  · rw [decodeToken_opRun tl ((tag_eq_iff b0 _).2 (by simp; omega)) (by rintro rfl; simp at hlt)
      (by rintro rfl; simp at hlt)]
    simp [extractLsb'_eq_ofNat_div]

/-- Settles O5: a field's value is the beat's divided by its lowest bit's. -/
theorem beatLayouts : Obligations.BeatLayouts :=
  ⟨fun b => by simp [decode, decodeStart, extractLsb'_eq_ofNat_div],
    fun b => by simp [decode, decodePixel, extractLsb'_eq_ofNat_div]⟩

/-- Only one byte of an output unit decodes to a run, and the token decoder gives no reserved field
(30_encoding.md R76, R77). -/
theorem runFieldOk_of_decode {b : Beat} {l : BitVec 6} (hd : decode b = .ok (.opRun l)) :
    runFieldOk l = true := by
  cases b with
  | outUnit bs =>
    have hlen : bs.length = 1 := by rw [decodeUnit_sound hd]; rfl
    rw [decode, decodeUnit, if_neg (by omega), if_neg (by omega)] at hd
    exact (decodeOneToken_sound hd).1
  | cfg _ => cases hd
  | pix _ => cases hd
  | outReady => cases hd
  | sinkErr => cases hd
  | rst => cases hd

end Sys2Proof
end

section
/-! The output units as instructions of their own (log entries 4 and 6): which answer a next state, and which. -/

namespace Sys2Proof.Machine

/-- Settles O6: the fields 62 and 63 are the ones `runFieldOk` refuses, and the decoder gives none of them. -/
theorem reservedRunFieldStops : Obligations.ReservedRunFieldStops := by
  refine ⟨fun l s hl => ?_, fun b l hd => of_decide_eq_true (runFieldOk_of_decode hd)⟩
  have hbad : ¬ runFieldOk l = true := by simp [runFieldOk]; omega
  exact if_neg hbad

/-- A header is well-formed exactly on a valid descriptor (60_exceptions.md R211, R212). -/
theorem validDescriptor_of_wellFormed {w h : BitVec 32} {ch : Byte} {cs : BitVec 1}
    (hw : (Instr.header w h ch cs).wellFormed = true) : ValidDescriptor w h ch := by
  simpa [ValidDescriptor, Instr.wellFormed, dimOk, channelsOk, and_assoc] using hw

/-- An output unit with legal fields always answers a next state. -/
theorem exec_unit_next {i : Instr} (hw : i.wellFormed = true) (hc : i.isCommand = false) (s : State) :
    ∃ t, exec i s = .next t := by
  cases i with
  | opRun l => exact ⟨_, if_pos hw⟩
  | opIndex _ => exact ⟨_, rfl⟩
  | opDiff _ _ _ => exact ⟨_, rfl⟩
  | opLuma _ _ _ => exact ⟨_, rfl⟩
  | opRgb _ _ _ => exact ⟨_, rfl⟩
  | opRgba _ _ _ _ => exact ⟨_, rfl⟩
  | header _ _ _ _ => exact ⟨_, rfl⟩
  | endMarker => exact ⟨_, rfl⟩
  | start _ _ _ _ => cases hc
  | pixel _ _ _ _ => cases hc
  | drain => cases hc
  | sinkfail => cases hc
  | reset => cases hc

/-- Settles O7: of an output unit's two effects, error entry needs a descriptor that is not valid. -/
theorem unitsEmitTheirEncoding : Obligations.UnitsEmitTheirEncoding := by
  intro i hw hc s
  obtain ⟨t, hx⟩ := exec_unit_next hw hc s
  obtain rfl | ⟨w, h, ch, cs, e, rfl, he, -⟩ := exec_unit_cases hc hx
  · exact hx
  · exact absurd (validDescriptor_of_wellFormed hw) (not_validDescriptor_of_error he)

end Sys2Proof.Machine
end

section
/-! A whole encode's stream (30_encoding.md R70, R78): the tokens one PIXEL step appends, and the tokens of a run of PIXELs
and DRAINs. -/

namespace Sys2Proof.Machine

/-! ## The tokens of one PIXEL step -/

/-- The tokens a PIXEL step appends (42_pixel_selector.md R149): a pixel that joins the run flushes it at 62 or at the last
pixel; any other pixel ends the pending run and gets its own token. -/
def pixelTokens (p : Pixel) (s : State) : List Instr :=
  if p = s.prev then
    if s.run + 1 = runMax ∨ s.pixRemain = 1 then [.opRun s.run] else []
  else pendingRunTokens s ++ [ownToken p s]

/-- A token of the stream with its fields in range (30_encoding.md R74, R77). -/
def LegalToken (k : Instr) : Prop := k.isToken = true ∧ k.wellFormed = true

theorem legalToken_opRun {l : BitVec 6} (hl : l.toNat ≤ 61) : LegalToken (.opRun l) := ⟨rfl, decide_eq_true hl⟩

/-- The field of a pending run's token is RUN - 1 (43_opcode_serializer.md R164). -/
theorem run_sub_one_toNat {r : BitVec 6} (hr : r ≠ 0) : (r - 1).toNat = r.toNat - 1 := by
  bv_omega

theorem pendingRunTokens_legal {s : State} (hr : s.run.toNat ≤ 61) : ∀ k ∈ pendingRunTokens s, LegalToken k := by
  unfold pendingRunTokens
  split
  · simp
  · rename_i h0
    have hs := run_sub_one_toNat h0
    intro k hk
    rw [List.mem_singleton.1 hk]
    exact legalToken_opRun (by omega)

theorem pendingRunTokens_pixels (s : State) : ((pendingRunTokens s).map tokenPixels).sum = s.run.toNat := by
  unfold pendingRunTokens
  split
  · rename_i h0
    rw [h0]
    rfl
  · rename_i h0
    have hs := run_sub_one_toNat h0
    have hpos : s.run.toNat ≠ 0 := fun e => h0 (BitVec.eq_of_toNat_eq e)
    simp only [List.map_singleton, List.sum_singleton, tokenPixels]
    omega

theorem pixelTokens_legal {s : State} (hr : s.run.toNat ≤ 61) (p : Pixel) : ∀ k ∈ pixelTokens p s, LegalToken k := by
  unfold pixelTokens
  split
  · split
    · simpa using legalToken_opRun hr
    · simp
  · intro k hk
    rcases List.mem_append.1 hk with hk | hk
    · exact pendingRunTokens_legal hr k hk
    · rw [List.mem_singleton.1 hk]
      exact ⟨ownToken_isToken p s, ownToken_wellFormed p s⟩

/-- What a PIXEL step leaves, by its tokens: its pixel joins those the tokens stand for and those still pending, and none
is pending after the last pixel (42_pixel_selector.md R148, R149, R152). -/
theorem pixelStep_pixelTokens {s : State} (hr : s.run.toNat ≤ 61) (p : Pixel) :
    ∃ run cache,
      pixelStep p s = afterPixel p ((pixelTokens p s).flatMap unitBytes ++ lastPixelBytes s) run cache s ∧
      ((pixelTokens p s).map tokenPixels).sum + run.toNat = s.run.toNat + 1 ∧ run.toNat ≤ 61 ∧
      (s.pixRemain = 1 → run = 0) := by
  by_cases hp : p = s.prev
  · rw [pixelStep_join hp, pixelTokens, if_pos hp]
    split
    · exact ⟨0, s.cache, by simp, by simp [tokenPixels], by simp, fun _ => rfl⟩
    · rename_i hn
      rw [not_or] at hn
      obtain ⟨hmax, hlast⟩ := hn
      have hne : s.run + 1 ≠ 62#6 := hmax
      have hrun : (s.run + 1).toNat = s.run.toNat + 1 := by bv_omega
      refine ⟨s.run + 1, s.cache, ?_, (Nat.zero_add _).trans hrun, by bv_omega, fun h1 => absurd h1 hlast⟩
      rw [lastPixelBytes, if_neg hlast]
      rfl
  · rw [pixelStep_own hp, pixelTokens, if_neg hp]
    exact ⟨0, ownCache p s, by simp, by simp [pendingRunTokens_pixels, tokenPixels_ownToken], by simp, fun _ => rfl⟩

/-! ## DRAIN -/

/-- A DRAIN always answers a next state, and it writes SENT and the sink only (44_byte_packer_termination.md R191). -/
theorem exec_drain_frame (s : State) : ∃ n k, exec .drain s = .next { s with sent := n, sink := k } := by
  cases hv : outValid s
  · exact ⟨s.sent, s.sink, by simp [exec, execDrain, hv]⟩
  · exact ⟨_, _, by simp only [exec, execDrain, hv, if_true]; rfl⟩

/-- Without PIXELs a run of commands leaves MODE and OUT. -/
theorem runAll_drains {cmds : List Instr} (hc : ∀ i ∈ cmds, isPixelOrDrain i = true) (hp : pixelsOf cmds = [])
    (s : State) : ∃ t, runAll cmds s = .next t ∧ t.mode = s.mode ∧ t.out = s.out := by
  induction cmds generalizing s with
  | nil => exact ⟨s, rfl, rfl, rfl⟩
  | cons i is ih =>
    rw [List.forall_mem_cons] at hc
    obtain ⟨hi, his⟩ := hc
    obtain ⟨r, g, b, a, rfl⟩ | rfl := isPixelOrDrain_cases hi
    · rw [pixelsOf_cons_pixel] at hp
      cases hp
    · obtain ⟨n, k, hx⟩ := exec_drain_frame s
      rw [runAll_cons_next hx]
      exact ih his hp _

/-! ## The body of a stream -/

/-- The commands run to DONE, and OUT grows by legal tokens that stand for `n` pixels and by the end marker
(30_encoding.md R70). -/
def EncodesBody (cmds : List Instr) (s : State) (n : Nat) : Prop :=
  ∃ (t : State) (toks : List Instr), runAll cmds s = .next t ∧ t.mode = .done ∧
    t.out = s.out ++ toks.flatMap unitBytes ++ endMarkerBytes ∧ (∀ k ∈ toks, LegalToken k) ∧
    (toks.map tokenPixels).sum = n

section
variable {s : State} {is : List Instr} (r g b a : Byte) (hm : s.mode = .encoding) (hr : s.run.toNat ≤ 61)
include hm hr

/-- The last pixel's tokens are the body's last, and the commands after it are DRAINs. -/
theorem encodesBody_last_pixel (hc : ∀ i ∈ is, isPixelOrDrain i = true) (hp : pixelsOf is = [])
    (h1 : s.pixRemain = 1) : EncodesBody (.pixel r g b a :: is) s (s.run.toNat + 1) := by
  rw [EncodesBody, runAll_cons_next (exec_pixel_encoding r g b a hm)]
  generalize normalise s.descCh ⟨r, g, b, a⟩ = p
  obtain ⟨run, cache, hstep, hsum, -, hlast⟩ := pixelStep_pixelTokens hr p
  rw [hlast h1] at hsum
  obtain ⟨t, ht, hmode, hout⟩ := runAll_drains hc hp (pixelStep p s)
  rw [pixelStep_mode, if_pos h1] at hmode
  refine ⟨t, pixelTokens p s, ht, hmode, ?_, pixelTokens_legal hr p, hsum⟩
  rw [hout, hstep, ← lastPixelBytes_of_last h1, List.append_assoc]
  rfl

/-- Before the last pixel, a PIXEL's tokens stand before those of the commands that follow. -/
theorem encodesBody_more_pixels (h1 : s.pixRemain ≠ 1)
    (ih : ∀ t : State, t.mode = .encoding → t.run.toNat ≤ 61 → t.pixRemain = s.pixRemain - 1 →
      EncodesBody is t (t.run.toNat + t.pixRemain.toNat)) (h0 : s.pixRemain ≠ 0) :
    EncodesBody (.pixel r g b a :: is) s (s.run.toNat + s.pixRemain.toNat) := by
  rw [EncodesBody, runAll_cons_next (exec_pixel_encoding r g b a hm)]
  generalize normalise s.descCh ⟨r, g, b, a⟩ = p
  obtain ⟨run, cache, hstep, hsum, hrun, -⟩ := pixelStep_pixelTokens hr p
  obtain ⟨t, toks, ht, hmode, hout, hlegal, hpixels⟩ := ih (pixelStep p s) (by rw [pixelStep_mode, if_neg h1, hm])
    (by rw [hstep]; exact hrun) (by rw [hstep]; rfl)
  have hpix : (toks.map tokenPixels).sum = run.toNat + (s.pixRemain - 1).toNat := by rw [hpixels, hstep]; rfl
  have hsub : (s.pixRemain - 1).toNat = s.pixRemain.toNat - 1 := by bv_omega
  have hpos : s.pixRemain.toNat ≠ 0 := fun e => h0 (BitVec.eq_of_toNat_eq e)
  refine ⟨t, pixelTokens p s ++ toks, ht, hmode, ?_, List.forall_mem_append.2 ⟨pixelTokens_legal hr p, hlegal⟩, ?_⟩
  · have hnone : lastPixelBytes s = [] := if_neg h1
    rw [hout, hstep, hnone, List.append_nil, List.flatMap_append, ← List.append_assoc s.out]
    rfl
  · rw [List.map_append, List.sum_append]
    omega

end

/-- PIXELs and DRAINs with all the pixels still to come encode the body, the pending run included. -/
theorem runAll_body {cmds : List Instr} (hc : ∀ i ∈ cmds, isPixelOrDrain i = true) {s : State}
    (hm : s.mode = .encoding) (hr : s.run.toNat ≤ 61) (hn : (pixelsOf cmds).length = s.pixRemain.toNat)
    (h0 : s.pixRemain ≠ 0) : EncodesBody cmds s (s.run.toNat + s.pixRemain.toNat) := by
  induction cmds generalizing s with
  | nil => exact absurd (BitVec.eq_of_toNat_eq hn.symm) h0
  | cons i is ih =>
    rw [List.forall_mem_cons] at hc
    obtain ⟨hi, his⟩ := hc
    obtain ⟨r, g, b, a, rfl⟩ | rfl := isPixelOrDrain_cases hi
    · rw [pixelsOf_cons_pixel, List.length_cons] at hn
      by_cases h1 : s.pixRemain = 1
      · rw [h1] at hn ⊢
        exact encodesBody_last_pixel r g b a hm hr his (List.length_eq_zero_iff.1 (Nat.succ.inj hn)) h1
      · refine encodesBody_more_pixels r g b a hm hr h1 (fun t htm htr htp => ih his htm htr ?_ ?_) h0
        · rw [htp]
          bv_omega
        · rw [htp]
          exact (last_iff _).not.2 h1
    · obtain ⟨n, k, hx⟩ := exec_drain_frame s
      rw [EncodesBody, runAll_cons_next hx]
      exact ih his (s := { s with sent := n, sink := k }) hm hr hn h0

/-! ## Counting tokens -/

theorem one_le_tokenPixels {k : Instr} (hk : k.isToken = true) : 1 ≤ tokenPixels k := by
  revert hk
  cases k <;> simp [Instr.isToken, tokenPixels]

/-- Every token stands for at least one pixel, so there are at most as many tokens as pixels (30_encoding.md R78). -/
theorem length_le_tokenPixels_sum {toks : List Instr} (ht : ∀ k ∈ toks, LegalToken k) :
    toks.length ≤ (toks.map tokenPixels).sum := by
  induction toks with
  | nil => simp
  | cons k ks ih =>
    rw [List.forall_mem_cons] at ht
    obtain ⟨hk, hks⟩ := ht
    have h1 := one_le_tokenPixels hk.1
    have h2 := ih hks
    simp only [List.length_cons, List.map_cons, List.sum_cons]
    omega

/-- Settles O55: START leaves the header and all the pixels to come, and the body follows. -/
theorem streamLayout : Obligations.StreamLayout := by
  intro w h ch cs cmds s hm hs hw
  have hx := exec_start_valid cs ((cfgReady_iff s).2 ⟨hm, hs⟩) hw.valid
  have hcount : (afterStart w h ch cs s).pixRemain.toNat = w.toNat * h.toNat := pixelCount_toNat w h
  have hne : (afterStart w h ch cs s).pixRemain ≠ 0 := pixelCount_ne_zero hw.valid.1 hw.valid.2.1
  obtain ⟨t, toks, ht, htm, hto, htl, hts⟩ := runAll_body hw.commands (s := afterStart w h ch cs s) rfl (Nat.zero_le _)
    (hw.count.trans hcount.symm) hne
  have hsum : (toks.map tokenPixels).sum = w.toNat * h.toNat := by
    rw [hts, hcount]
    exact Nat.zero_add _
  have hlen : 1 ≤ toks.length := by
    by_contra hnil
    have hzero : toks = [] := List.length_eq_zero_iff.1 (by omega)
    rw [hzero, ← hcount] at hsum
    exact hne (BitVec.eq_of_toNat_eq hsum.symm)
  rw [runAll_cons_next hx]
  exact ⟨t, toks, ht, htm, hto, htl, hlen, hsum ▸ length_le_tokenPixels_sum htl, hsum⟩

end Sys2Proof.Machine
end

section
/-! The start of an encode (40_start_header.md): the header serializer, what a valid START leaves, when START is held, and
what of the descriptor the body reads. -/

namespace Sys2Proof.Machine

/-! ## The header serializer -/

/-- The 14 header bytes by value: width and height big-endian, then channels and colour space (30_encoding.md R71). -/
theorem headerBytes_eq (w h : BitVec 32) (ch : Byte) (cs : BitVec 1) :
    headerBytes w h ch cs =
      [0x71, 0x6F, 0x69, 0x66,
       BitVec.ofNat 8 (w.toNat / 2 ^ 24), BitVec.ofNat 8 (w.toNat / 2 ^ 16), BitVec.ofNat 8 (w.toNat / 2 ^ 8),
       BitVec.ofNat 8 w.toNat,
       BitVec.ofNat 8 (h.toNat / 2 ^ 24), BitVec.ofNat 8 (h.toNat / 2 ^ 16), BitVec.ofNat 8 (h.toNat / 2 ^ 8),
       BitVec.ofNat 8 h.toNat,
       ch, BitVec.ofNat 8 cs.toNat] := by
  have hcs : ∀ x : BitVec 1, (0#7 ++ x : BitVec 8) = BitVec.ofNat 8 x.toNat := by decide
  rw [headerBytes, be32_eq, be32_eq, hcs]
  rfl

theorem exec_header_valid {w h : BitVec 32} {ch : Byte} (cs : BitVec 1) (hv : ValidDescriptor w h ch) (s : State) :
    exec (.header w h ch cs) s = .next
      { s with out := s.out ++ headerBytes w h ch cs, outCount := s.outCount + 14 } := by
  simp only [exec, execHeader, serializeHeader, descriptorError_eq_none.2 hv, emitHeader_eq, emitAll_eq,
    headerBytes_length]
  rfl

theorem exec_header_bad {w h : BitVec 32} {ch : Byte} {e : Err} {s : State} (cs : BitVec 1)
    (he : descriptorError w h ch = some e) (hs : s.sent ≤ s.out.length) :
    exec (.header w h ch cs) s = .next (afterError e s) := by
  simp only [exec, execHeader, serializeHeader, he, raise_eq_afterError hs]

/-- The dimensions are checked first (40_start_header.md R101). -/
theorem descriptorError_of_zero {w h : BitVec 32} (h0 : w = 0 ∨ h = 0) (ch : Byte) :
    descriptorError w h ch = some .invalidDimensions := if_pos h0

theorem descriptorError_of_channels {w h : BitVec 32} {ch : Byte} (hw : w ≠ 0) (hh : h ≠ 0) (h3 : ch ≠ 3)
    (h4 : ch ≠ 4) : descriptorError w h ch = some .unsupportedChannelCount := by
  rw [descriptorError, if_neg (not_or.2 ⟨hw, hh⟩), if_pos ⟨h3, h4⟩]

/-- Settles O13: a valid descriptor passes both checks, and a bad one fails the first that applies. -/
theorem headerSerializesDescriptor : Obligations.HeaderSerializesDescriptor := by
  intro w h ch cs s
  refine ⟨fun hv => ?_, fun hs h0 => ?_, fun hs hw hh h3 h4 => ?_⟩
  · rw [exec_header_valid cs hv, headerBytes_eq]
  · exact exec_header_bad cs (descriptorError_of_zero h0 ch) hs
  · exact exec_header_bad cs (descriptorError_of_channels hw hh h3 h4) hs

/-! ## A valid START -/

/-- Settles O15: the state of an accepted valid START, its header and its pixel count by value. -/
theorem startBeginsEncode : Obligations.StartBeginsEncode := by
  intro w h ch cs s hm hs hv
  refine ⟨[], allInitial_nil s.cacheInit, ?_⟩
  rw [exec_start_valid cs ((cfgReady_iff s).2 ⟨hm, hs⟩) hv, afterStart, headerBytes_eq, pixelCount_eq]

/-- A valid START writes every element of the block, so only CACHE_INIT and the host's side of the ports reach its next
state (40_start_header.md R107). -/
theorem afterStart_eq_reset (w h : BitVec 32) (ch : Byte) (cs : BitVec 1) (s : State) :
    afterStart w h ch cs s = afterStart w h ch cs
      { State.reset with
        cacheInit := s.cacheInit
        cfgOffers := s.cfgOffers
        pixOffers := s.pixOffers
        outOffers := s.outOffers
        turns := s.turns
        sink := s.sink
        bench := s.bench } := rfl

/-- Settles O19: both STARTs are taken, and leave what START would leave after RESET with that host side. -/
theorem startForgetsPreviousEncode : Obligations.StartForgetsPreviousEncode := by
  intro w h ch cs s1 s2 hv hm1 hs1 hm2 hs2 hci hcfg hpix hout hturns hsink hbench
  refine ⟨_, exec_start_valid cs ((cfgReady_iff s1).2 ⟨hm1, hs1⟩) hv, ?_⟩
  rw [exec_start_valid cs ((cfgReady_iff s2).2 ⟨hm2, hs2⟩) hv, afterStart_eq_reset w h ch cs s1,
    afterStart_eq_reset w h ch cs s2, hci, hcfg, hpix, hout, hturns, hsink, hbench]

/-! ## A START that is held -/

theorem outQueue_eq_nil_iff (s : State) : outQueue s = [] ↔ s.out.length ≤ s.sent := List.drop_eq_nil_iff

theorem cfgReady_eq_false {s : State} (hs : s.mode = .encoding ∨ outQueue s ≠ []) : cfgReady s = false := by
  rw [← Bool.not_eq_true, cfgReady_iff]
  rintro ⟨hm, hsent⟩
  exact hs.elim hm fun hq => hq ((outQueue_eq_nil_iff s).2 hsent.ge)

/-- Settles O18: on its turn the beat is taken where `cfg_ready` is 1 and stays offered where it is 0. -/
theorem startHeldStaysOffered : Obligations.StartHeldStaysOffered := by
  intro s b bs ts hb ht ho
  obtain ⟨hcfg, -⟩ := stepRunsDecodedCommand s (decodeStart b) ts
  have hstep := hcfg b bs hb ht ho rfl
  have henabled : enabled (decodeStart b) s = cfgReady s := rfl
  refine ⟨fun hheld => ?_, fun hm hq hs => ?_⟩
  · have hr : cfgReady s = false := cfgReady_eq_false hheld
    rw [hstep, if_neg (by simp [henabled, hr])]
    exact exec_start_held _ _ _ _ hr
  · have hr : cfgReady s = true := (cfgReady_iff s).2 ⟨hm, hs.antisymm ((outQueue_eq_nil_iff s).1 hq)⟩
    exact ⟨by rw [hstep, if_pos (henabled.trans hr)], hr⟩

/-! ## The descriptor in the body -/

/-- `s` with other values in DESC_W, DESC_H and DESC_CS: the latches that the body does not read (40_start_header.md R105,
R106). -/
def withGeometry (w h : BitVec 32) (cs : BitVec 1) (s : State) : State :=
  { s with descW := w, descH := h, descCs := cs }

section
variable (w h : BitVec 32) (cs : BitVec 1)

theorem pixelStep_withGeometry (p : Pixel) (s : State) :
    pixelStep p (withGeometry w h cs s) = withGeometry w h cs (pixelStep p s) := by
  by_cases hp : p = s.prev
  · have hp' : p = (withGeometry w h cs s).prev := hp
    rw [pixelStep_join hp, pixelStep_join hp', apply_ite (withGeometry w h cs)]
    rfl
  · have hp' : p ≠ (withGeometry w h cs s).prev := hp
    have htoken : ownToken p (withGeometry w h cs s) = ownToken p s := ownToken_congr rfl rfl rfl
    have hcache : ownCache p (withGeometry w h cs s) = ownCache p s := ownCache_congr rfl rfl
    rw [pixelStep_own hp, pixelStep_own hp', htoken, hcache]
    rfl

theorem exec_pixelOrDrain_withGeometry {i : Instr} {s t : State} (hi : isPixelOrDrain i = true)
    (hx : exec i s = .next t) : exec i (withGeometry w h cs s) = .next (withGeometry w h cs t) := by
  obtain ⟨r, g, b, a, rfl⟩ | rfl := isPixelOrDrain_cases hi
  · obtain ⟨hm, rfl⟩ | ⟨hm, rfl⟩ := exec_pixel_cases hx
    · exact exec_pixel_held r g b a hm
    · rw [← pixelStep_withGeometry]
      exact exec_pixel_encoding r g b a hm
  · obtain ⟨hv, rfl⟩ | ⟨hv, rfl⟩ := exec_drain_cases hx
    · exact if_neg (Bool.eq_false_iff.1 hv)
    · exact if_pos hv

/-- A run that answers a next state ran its first command to one. -/
theorem runAll_cons_eq_next {i : Instr} {is : List Instr} {s t : State} (hr : runAll (i :: is) s = .next t) :
    ∃ u, exec i s = .next u ∧ runAll is u = .next t := by
  cases hx : exec i s with
  | next u => exact ⟨u, rfl, runAll_cons_next hx ▸ hr⟩
  | fault f => cases f
  | refused r => simp [runAll, hx] at hr

theorem runAll_withGeometry {cmds : List Instr} (hc : ∀ i ∈ cmds, isPixelOrDrain i = true) {s t : State}
    (hr : runAll cmds s = .next t) : runAll cmds (withGeometry w h cs s) = .next (withGeometry w h cs t) := by
  induction cmds generalizing s with
  | nil => cases hr; rfl
  | cons i is ih =>
    rw [List.forall_mem_cons] at hc
    obtain ⟨hi, his⟩ := hc
    obtain ⟨u, hx, hu⟩ := runAll_cons_eq_next hr
    rw [runAll_cons_next (exec_pixelOrDrain_withGeometry w h cs hi hx)]
    exact ih his hu

end

/-- Settles O31: each PIXEL and DRAIN does the same whatever the three latches hold. -/
theorem geometryDoesNotReachBody : Obligations.GeometryDoesNotReachBody :=
  fun _ _ _ w h cs hc hr => runAll_withGeometry w h cs hc hr

end Sys2Proof.Machine
end

section
/-! The colour cache (41_color_cache.md): a PIXEL step's closed form, what every slot reads after an instruction, and the
hash in hardware. -/

namespace Sys2Proof.Machine

/-! ## A PIXEL step in closed form -/

/-- RUN after a PIXEL (42_pixel_selector.md R144, R145). -/
def nextRun (p : Pixel) (s : State) : BitVec 6 :=
  if p = s.prev ∧ ¬ (s.run + 1 = runMax ∨ s.pixRemain = 1) then s.run + 1 else 0

/-- CACHE after a PIXEL: "A pixel absorbed into a run does not write the cache" (41_color_cache.md R127). -/
def nextCache (p : Pixel) (s : State) : Memory := if p = s.prev then s.cache else ownCache p s

/-- The bytes a PIXEL emits: its tokens, and the end marker after the last pixel (42_pixel_selector.md R149). -/
def pixelBytes (p : Pixel) (s : State) : List Byte := (pixelTokens p s).flatMap unitBytes ++ lastPixelBytes s

theorem pixelStep_eq (p : Pixel) (s : State) :
    pixelStep p s = afterPixel p (pixelBytes p s) (nextRun p s) (nextCache p s) s := by
  by_cases hp : p = s.prev
  · rw [pixelStep_join hp, pixelBytes, pixelTokens, nextRun, nextCache, if_pos hp, if_pos hp]
    by_cases hf : s.run + 1 = runMax ∨ s.pixRemain = 1
    · rw [if_pos hf, if_pos hf, if_neg (fun h => h.2 hf), List.flatMap_singleton]
    · have hnone : lastPixelBytes s = [] := if_neg (not_or.1 hf).2
      rw [if_neg hf, if_neg hf, if_pos ⟨hp, hf⟩, hnone]
      rfl
  · rw [pixelStep_own hp, pixelBytes, pixelTokens, nextRun, nextCache, if_neg hp, if_neg hp, if_neg (fun h => hp h.1),
      List.flatMap_append, List.flatMap_singleton]

/-! ### The fields after a PIXEL -/

@[simp] theorem pixelStep_cacheInit (p : Pixel) (s : State) : (pixelStep p s).cacheInit = s.cacheInit := by rw [pixelStep_eq]; rfl
@[simp] theorem pixelStep_err (p : Pixel) (s : State) : (pixelStep p s).err = s.err := by rw [pixelStep_eq]; rfl
@[simp] theorem pixelStep_descCh (p : Pixel) (s : State) : (pixelStep p s).descCh = s.descCh := by rw [pixelStep_eq]; rfl
@[simp] theorem pixelStep_sent (p : Pixel) (s : State) : (pixelStep p s).sent = s.sent := by rw [pixelStep_eq]; rfl
@[simp] theorem pixelStep_sink (p : Pixel) (s : State) : (pixelStep p s).sink = s.sink := by rw [pixelStep_eq]; rfl
@[simp] theorem pixelStep_pixRemain (p : Pixel) (s : State) : (pixelStep p s).pixRemain = s.pixRemain - 1 := by rw [pixelStep_eq]; rfl
@[simp] theorem pixelStep_prev (p : Pixel) (s : State) : (pixelStep p s).prev = p := by rw [pixelStep_eq]; rfl
@[simp] theorem pixelStep_run (p : Pixel) (s : State) : (pixelStep p s).run = nextRun p s := by rw [pixelStep_eq]; rfl

/-! ## What the slots read after a PIXEL -/

/-- A slot reads after a PIXEL what it reads in the cache the step leaves. -/
theorem probe_pixelStep (h : BitVec 6) (p : Pixel) (s : State) :
    probe h (pixelStep p s) = Memory.read s.cacheInit (nextCache p s) h.toNat := by
  rw [pixelStep_eq]
  rfl

theorem probe_pixelStep_join {p : Pixel} {s : State} (hp : p = s.prev) (h : BitVec 6) :
    probe h (pixelStep p s) = probe h s := by
  rw [probe_pixelStep, nextCache, if_pos hp]
  rfl

/-- After a pixel that joins no run its slot holds it, hit or miss. -/
theorem probe_pixelStep_hash {p : Pixel} {s : State} (hw : Memory.wf s.cacheInit s.cache = true) (hp : p ≠ s.prev) :
    probe (hashOf p) (pixelStep p s) = some p := by
  rw [probe_pixelStep, nextCache, if_neg hp]
  exact ownCache_read_same hw

/-- A PIXEL leaves every slot but its hash's (41_color_cache.md R123). -/
theorem probe_pixelStep_other {p : Pixel} {s : State} {h : BitVec 6} (hh : h ≠ hashOf p) :
    probe h (pixelStep p s) = probe h s := by
  by_cases hp : p = s.prev
  · exact probe_pixelStep_join hp h
  · rw [probe_pixelStep, nextCache, if_neg hp]
    exact ownCache_read_other hh

theorem pixelStep_wf {s : State} (hw : Memory.wf s.cacheInit s.cache = true) (p : Pixel) :
    Memory.wf s.cacheInit (pixelStep p s).cache = true := by
  rw [pixelStep_eq]
  change Memory.wf s.cacheInit (nextCache p s) = true
  unfold nextCache
  split
  · exact hw
  · exact ownCache_wf hw

/-! ## Who writes CACHE -/

/-- No instruction writes the parameter CACHE_INIT (log entry 7). -/
theorem ExecEffect.cacheInit_eq {i : Instr} {s t : State} (he : ExecEffect i s t) : t.cacheInit = s.cacheInit := by
  cases he with
  | pixel _ => exact pixelStep_cacheInit _ s
  | _ => rfl

/-- Settles O46: of the effects, those that write CACHE are an accepted valid START, RESET and a PIXEL's miss. -/
theorem cacheWrittenOnlyByMissOrInit : Obligations.CacheWrittenOnlyByMissOrInit := by
  intro i s t hw hx
  have he := ExecEffect.of_exec hx
  refine ⟨he.cacheInit_eq, ?_⟩
  cases he with
  | @pixel r g b a s _ =>
    generalize hp : normalise s.descCh ⟨r, g, b, a⟩ = p
    by_cases hprev : p = s.prev
    · exact .inl (probe_pixelStep_join hprev)
    · have hsame := probe_pixelStep_hash hw hprev
      by_cases hhit : probe (hashOf p) s = some p
      · left
        intro h
        by_cases hh : h = hashOf p
        · rw [hh, hsame, hhit]
        · exact probe_pixelStep_other hh
      · exact .inr (.inr ⟨r, g, b, a, p, rfl, hp.symm, hprev, hhit, hsame, fun h hh => probe_pixelStep_other hh⟩)
  | startValid _ hv => exact .inr (.inl ⟨.inl ⟨_, _, _, _, rfl, hv⟩, allInitial_nil _⟩)
  | reset => exact .inr (.inl ⟨.inr rfl, allInitial_nil _⟩)
  | held _ => exact .inl fun _ => rfl
  | startBad _ _ => exact .inl fun _ => rfl
  | drain _ => exact .inl fun _ => rfl
  | sinkfailIgnored _ => exact .inl fun _ => rfl
  | sinkfail _ => exact .inl fun _ => rfl
  | unit _ => exact .inl fun _ => rfl
  | headerBad _ => exact .inl fun _ => rfl

/-! ## The hash in hardware -/

/-- The sum may be formed in words of any width: cutting to `n` bits commutes with the products and the additions
(41_color_cache.md R121). -/
theorem ofNat_weightedSum (n : Nat) (p : Pixel) :
    BitVec.ofNat n (weightedSum p) =
      3 * p.r.setWidth n + 5 * p.g.setWidth n + 7 * p.b.setWidth n + 11 * p.a.setWidth n := by
  simp only [weightedSum, BitVec.ofNat_add, BitVec.ofNat_mul, BitVec.ofNat_toNat]
  rfl

/-- "the sum may be reduced modulo 64 at any stage" (41_color_cache.md R121). -/
theorem hashOf_eq_ofNat (p : Pixel) : hashOf p = BitVec.ofNat 6 (weightedSum p) := by
  apply BitVec.eq_of_toNat_eq
  simp [hashOf]

/-- The weighted sum is in [0, 6630] (41_color_cache.md R120). -/
theorem weightedSum_le (p : Pixel) : weightedSum p ≤ 6630 := by
  have hr := p.r.isLt
  have hg := p.g.isLt
  have hb := p.b.isLt
  have ha := p.a.isLt
  unfold weightedSum
  omega

/-- Settles O51: both hardware forms are the weighted sum in words of 13 and of 6 bits. -/
theorem hashHardwareForm : Obligations.HashHardwareForm := by
  intro p
  refine ⟨?_, weightedSum_le p, ?_, ?_⟩
  · rw [hashOf_eq_ofNat, BitVec.toNat_ofNat]
    rfl
  · have hfits : weightedSum p % 2 ^ 13 = weightedSum p := Nat.mod_eq_of_lt ((weightedSum_le p).trans_lt (by decide))
    rw [← ofNat_weightedSum, hashOf_eq_ofNat, extractLsb'_eq_ofNat_div, BitVec.toNat_ofNat, hfits, pow_zero,
      Nat.div_one]
  · rw [hashOf_eq_ofNat, ofNat_weightedSum]

end Sys2Proof.Machine
end

section
/-! Two blocks that differ in CACHE_INIT alone (41_color_cache.md R125, R128): where the difference shows, and where it
never does. -/

namespace Sys2Proof.Machine

/-! ## PIXEL as a function of the state -/

/-- What PIXEL leaves: the step on the normalised pixel in ENCODING, the state itself where it is held
(42_pixel_selector.md R140, R142). -/
def takePixel (s : State) (pin : Pixel) : State :=
  if s.mode = .encoding then pixelStep (normalise s.descCh pin) s else s

theorem exec_pixel_takePixel (r g b a : Byte) (s : State) :
    exec (.pixel r g b a) s = .next (takePixel s ⟨r, g, b, a⟩) := by
  unfold takePixel
  split
  · exact exec_pixel_encoding r g b a ‹_›
  · exact exec_pixel_held r g b a ‹_›

/-- PIXEL leaves DESC_CH and what DRAINs write. -/
theorem takePixel_frame (s : State) (pin : Pixel) :
    (takePixel s pin).descCh = s.descCh ∧ (takePixel s pin).sent = s.sent ∧ (takePixel s pin).sink = s.sink := by
  unfold takePixel
  split
  · exact ⟨pixelStep_descCh _ s, pixelStep_sent _ s, pixelStep_sink _ s⟩
  · exact ⟨rfl, rfl, rfl⟩

/-- The PIXELs of a list, one after the other. -/
def takePixels (px : List Pixel) (s : State) : State := px.foldl takePixel s

/-! ## The sink's side of a run -/

/-- `s` with another SENT and another record of the sink: what DRAINs write (44_byte_packer_termination.md R191). -/
def withSink (n : Nat) (k : List Transfer) (s : State) : State := { s with sent := n, sink := k }

theorem takePixel_withSink (n : Nat) (k : List Transfer) (s : State) (pin : Pixel) :
    takePixel (withSink n k s) pin = withSink n k (takePixel s pin) := by
  unfold takePixel
  rw [apply_ite (withSink n k), pixelStep_eq, pixelStep_eq]
  rfl

theorem takePixels_withSink (n : Nat) (k : List Transfer) (px : List Pixel) (s : State) :
    takePixels px (withSink n k s) = withSink n k (takePixels px s) := by
  induction px generalizing s with
  | nil => rfl
  | cons pin px ih => exact (congrArg (takePixels px) (takePixel_withSink n k s pin)).trans (ih _)

/-- PIXELs and DRAINs leave what the PIXELs alone leave, but for SENT and the sink: it does not matter where the DRAINs
fall (60_exceptions.md R221). -/
theorem runAll_takePixels {cmds : List Instr} (hc : ∀ i ∈ cmds, isPixelOrDrain i = true) (s : State) :
    ∃ n k, runAll cmds s = .next (withSink n k (takePixels (pixelsOf cmds) s)) := by
  induction cmds generalizing s with
  | nil => exact ⟨s.sent, s.sink, rfl⟩
  | cons i is ih =>
    rw [List.forall_mem_cons] at hc
    obtain ⟨hi, his⟩ := hc
    obtain ⟨r, g, b, a, rfl⟩ | rfl := isPixelOrDrain_cases hi
    · rw [runAll_cons_next (exec_pixel_takePixel r g b a s)]
      exact ih his _
    · obtain ⟨n, k, hx⟩ := exec_drain_frame s
      obtain ⟨n', k', ht⟩ := ih his (withSink n k s)
      rw [takePixels_withSink] at ht
      exact ⟨n', k', (runAll_cons_next hx).trans ht⟩

/-! ## The pixel on which the two values differ -/

theorem hashOf_zeroPixel : hashOf zeroPixel = 0 := rfl

/-- In a 4-channel encode the alpha 0 stays (42_pixel_selector.md R141). -/
theorem exec_zeroPixel {s : State} (hm : s.mode = .encoding) (h4 : s.descCh = 4) :
    exec (.pixel 0 0 0 0) s = .next (pixelStep zeroPixel s) := by
  rw [exec_pixel_encoding 0 0 0 0 hm, h4]
  rfl

/-- The pending run's byte is its token's (43_opcode_serializer.md R164). -/
theorem pendingRunTokens_bytes (s : State) : (pendingRunTokens s).flatMap unitBytes = pendingRunBytes s := by
  unfold pendingRunTokens pendingRunBytes
  split
  · rfl
  · rw [List.flatMap_singleton, unitBytes_opRun, run_sub_one_toNat ‹_›]

theorem missToken_ne_opIndex (p prev : Pixel) (idx : BitVec 6) : missToken p prev ≠ .opIndex idx := by
  unfold missToken
  repeat' split
  all_goals simp

/-- Settles O59: slot 0 reads (0,0,0,0) under ZERO, which is a hit, and nothing under EMPTY, which is a miss. -/
theorem zeroPixelHitsUnderZeroOnly : Obligations.ZeroPixelHitsUnderZeroOnly := by
  intro s hm h4 _ hw hprev hslot
  have hprobe : probe (hashOf zeroPixel) s = Memory.unlisted s.cacheInit := initialSlot_iff.1 hslot
  rw [exec_zeroPixel hm h4, pixelStep_own hprev, pendingRunTokens_bytes]
  refine ⟨fun hci => ?_, fun hci => ?_⟩
  · have hhit : probe (hashOf zeroPixel) s = some zeroPixel := by
      rw [hprobe, hci]
      rfl
    obtain ⟨htoken, hcache⟩ := own_of_hit hhit
    rw [htoken, hcache]
    rfl
  · have hmiss : probe (hashOf zeroPixel) s ≠ some zeroPixel := by
      rw [hprobe, hci]
      exact nofun
    obtain ⟨htoken, hcache⟩ := own_of_miss hmiss
    obtain ⟨hsame, hother⟩ := storedIn_write hw (p := zeroPixel)
    rw [htoken, hcache]
    rw [hci] at hsame hother ⊢
    exact ⟨_, missToken zeroPixel s.prev, hsame, hother, missToken_isToken .., missToken_wellFormed ..,
      missToken_ne_opIndex _ _, missToken_ne_opRun _ _, rfl⟩

/-! ## The caches of two agreeing blocks -/

/-- The two blocks have appended the same bytes to their OUTs and counted them. -/
def AppendedSame (z e t u : State) : Prop :=
  ∃ bytes : List Byte,
    t.out = z.out ++ bytes ∧ t.outCount = z.outCount + BitVec.ofNat 64 bytes.length ∧
    u.out = e.out ++ bytes ∧ u.outCount = e.outCount + BitVec.ofNat 64 bytes.length

theorem AppendedSame.refl (z e : State) : AppendedSame z e z e := ⟨[], by simp⟩

theorem AppendedSame.trans {z e t u v w : State} (h1 : AppendedSame z e t u) (h2 : AppendedSame t u v w) :
    AppendedSame z e v w := by
  obtain ⟨bs1, hz, hzc, he, hec⟩ := h1
  obtain ⟨bs2, ht, htc, hu, huc⟩ := h2
  refine ⟨bs1 ++ bs2, ?_, ?_, ?_, ?_⟩
  · rw [ht, hz, List.append_assoc]
  · rw [htc, hzc, List.length_append, BitVec.ofNat_add, BitVec.add_assoc]
  · rw [hu, he, List.append_assoc]
  · rw [huc, hec, List.length_append, BitVec.ofNat_add, BitVec.add_assoc]

theorem AppendedSame.out_eq {z e t u : State} (h : AppendedSame z e t u) (ho : z.out = e.out) : t.out = u.out := by
  obtain ⟨bytes, ht, -, hu, -⟩ := h
  rw [ht, hu, ho]

section
variable {z e : State} (h : EncodersAgree z e)
include h

theorem EncodersAgree.z_wf : Memory.wf z.cacheInit z.cache = true := by
  rw [h.zero_built]
  exact h.zero_canonical

theorem EncodersAgree.e_wf : Memory.wf e.cacheInit e.cache = true := by
  rw [h.empty_built]
  exact h.empty_canonical

/-- The hit test answers the same unless the pixel is (0,0,0,0) and slot 0 differs. -/
theorem EncodersAgree.hit_eq {p : Pixel} (h0 : p = zeroPixel → probe 0 z = probe 0 e) : hit p z = hit p e := by
  by_cases hp : p = zeroPixel
  · unfold hit
    rw [hp, hashOf_zeroPixel, h0 hp]
  · rcases h.slots_agree (hashOf p) with heq | ⟨hz, he⟩
    · unfold hit
      rw [heq]
    · have hzp : probe (hashOf p) z ≠ some p := by
        rw [initialSlot_iff.1 hz]
        exact fun heq => hp (Option.some.inj heq).symm
      have hep : probe (hashOf p) e ≠ some p := by
        rw [initialSlot_iff.1 he]
        exact nofun
      exact (decide_eq_false hzp).trans (decide_eq_false hep).symm

theorem EncodersAgree.nextRun_eq (p : Pixel) : nextRun p z = nextRun p e := by
  unfold nextRun
  rw [h.prev_eq, h.run_eq, h.remain_eq]

/-- Where the hit test answers the same, so do the bytes. -/
theorem EncodersAgree.pixelBytes_eq {p : Pixel} (hh : hit p z = hit p e) : pixelBytes p z = pixelBytes p e := by
  unfold pixelBytes pixelTokens lastPixelBytes pendingRunTokens ownToken
  rw [hh, h.prev_eq, h.run_eq, h.remain_eq]

/-- What a PIXEL makes of a slot in the two blocks: it holds the pixel in both, or is left in both, hit or miss. -/
theorem EncodersAgree.probe_pixelStep_cases (p : Pixel) (j : BitVec 6) :
    (probe j (pixelStep p z) = some p ∧ probe j (pixelStep p e) = some p) ∨
    (probe j (pixelStep p z) = probe j z ∧ probe j (pixelStep p e) = probe j e) := by
  by_cases hj : j = hashOf p
  · subst hj
    by_cases hprev : p = z.prev
    · exact .inr ⟨probe_pixelStep_join hprev _, probe_pixelStep_join (hprev.trans h.prev_eq) _⟩
    · exact .inl ⟨probe_pixelStep_hash h.z_wf hprev, probe_pixelStep_hash h.e_wf (h.prev_eq ▸ hprev)⟩
  · exact .inr ⟨probe_pixelStep_other hj, probe_pixelStep_other hj⟩

theorem EncodersAgree.probe_pixelStep_eq {j : BitVec 6} (p : Pixel) (hj : probe j z = probe j e) :
    probe j (pixelStep p z) = probe j (pixelStep p e) := by
  obtain ⟨hz, he⟩ | ⟨hz, he⟩ := h.probe_pixelStep_cases p j
  · rw [hz, he]
  · rw [hz, he, hj]

/-- Agreeing blocks agree after any pixel, the one on which their bytes differ included: its slot holds it in both
(41_color_cache.md R128). -/
theorem EncodersAgree.after_pixelStep (p : Pixel) : EncodersAgree (pixelStep p z) (pixelStep p e) where
  zero_built := (pixelStep_cacheInit p z).trans h.zero_built
  empty_built := (pixelStep_cacheInit p e).trans h.empty_built
  zero_canonical := h.zero_built ▸ pixelStep_wf h.z_wf p
  empty_canonical := h.empty_built ▸ pixelStep_wf h.e_wf p
  mode_eq := by rw [pixelStep_mode, pixelStep_mode, h.remain_eq, h.mode_eq]
  err_eq := by rw [pixelStep_err, pixelStep_err, h.err_eq]
  channels_eq := by rw [pixelStep_descCh, pixelStep_descCh, h.channels_eq]
  remain_eq := by rw [pixelStep_pixRemain, pixelStep_pixRemain, h.remain_eq]
  prev_eq := by rw [pixelStep_prev, pixelStep_prev]
  run_eq := by rw [pixelStep_run, pixelStep_run, h.nextRun_eq]
  slots_agree j := by
    obtain ⟨hz, he⟩ | ⟨hz, he⟩ := h.probe_pixelStep_cases p j
    · exact .inl (hz.trans he.symm)
    · rw [hz, he]
      exact h.slots_agree j

/-- Where the hit test answers the same, a PIXEL appends the same bytes in both blocks. -/
theorem EncodersAgree.appendedSame_pixelStep {p : Pixel} (hh : hit p z = hit p e) :
    AppendedSame z e (pixelStep p z) (pixelStep p e) := by
  rw [pixelStep_eq, pixelStep_eq, ← h.pixelBytes_eq hh]
  exact ⟨pixelBytes p z, rfl, rfl, rfl, rfl⟩

/-! ## PIXELs in two agreeing blocks -/

/-- Both blocks take the pixel, and the same one, or both hold it. -/
theorem EncodersAgree.takePixel_cases (pin : Pixel) :
    (takePixel z pin = z ∧ takePixel e pin = e) ∨
    (takePixel z pin = pixelStep (normalise z.descCh pin) z ∧
      takePixel e pin = pixelStep (normalise z.descCh pin) e) := by
  unfold takePixel
  rw [← h.mode_eq, ← h.channels_eq]
  by_cases hm : z.mode = .encoding
  · exact .inr ⟨if_pos hm, if_pos hm⟩
  · exact .inl ⟨if_neg hm, if_neg hm⟩

theorem EncodersAgree.after_takePixel (pin : Pixel) : EncodersAgree (takePixel z pin) (takePixel e pin) := by
  obtain ⟨hz, he⟩ | ⟨hz, he⟩ := h.takePixel_cases pin
  · rwa [hz, he]
  · rw [hz, he]
    exact h.after_pixelStep _

theorem EncodersAgree.probe_takePixel_eq {j : BitVec 6} (pin : Pixel) (hj : probe j z = probe j e) :
    probe j (takePixel z pin) = probe j (takePixel e pin) := by
  obtain ⟨hz, he⟩ | ⟨hz, he⟩ := h.takePixel_cases pin
  · rwa [hz, he]
  · rw [hz, he]
    exact h.probe_pixelStep_eq _ hj

theorem EncodersAgree.appendedSame_takePixel {pin : Pixel}
    (h0 : normalise z.descCh pin = zeroPixel → probe 0 z = probe 0 e) :
    AppendedSame z e (takePixel z pin) (takePixel e pin) := by
  obtain ⟨hz, he⟩ | ⟨hz, he⟩ := h.takePixel_cases pin
  · rw [hz, he]
    exact .refl z e
  · rw [hz, he]
    exact h.appendedSame_pixelStep (h.hit_eq h0)

/-- DRAINs leave the agreement: it says nothing of SENT and the sink. -/
theorem EncodersAgree.withSink (n n' : Nat) (k k' : List Transfer) :
    EncodersAgree (withSink n k z) (withSink n' k' e) :=
  { h with }

end

/-- Once slot 0 reads the same, any PIXELs append the same bytes and leave agreeing blocks whose slot 0 reads the same
(41_color_cache.md R128). -/
theorem EncodersAgree.after_takePixels (px : List Pixel) {z e : State} (h : EncodersAgree z e)
    (h0 : probe 0 z = probe 0 e) :
    AppendedSame z e (takePixels px z) (takePixels px e) ∧ EncodersAgree (takePixels px z) (takePixels px e) ∧
      probe 0 (takePixels px z) = probe 0 (takePixels px e) := by
  induction px generalizing z e with
  | nil => exact ⟨.refl z e, h, h0⟩
  | cons pin px ih =>
    obtain ⟨hbytes, hrest⟩ := ih (h.after_takePixel pin) (h.probe_takePixel_eq pin h0)
    exact ⟨(h.appendedSame_takePixel fun _ => h0).trans hbytes, hrest⟩

/-- Settles O60: a PIXEL leaves its slot the same in both blocks; with slot 0 the same, the hit test answers the same. -/
theorem cacheInitSameOnceSlotZeroAgrees : Obligations.CacheInitSameOnceSlotZeroAgrees := by
  refine ⟨fun z e h hm h4 hprev _ _ => ?_, fun cmdsZ cmdsE z e hcz hce hpx h h0 => ?_⟩
  · have hslot : probe 0 (pixelStep zeroPixel z) = probe 0 (pixelStep zeroPixel e) :=
      (probe_pixelStep_hash h.z_wf hprev).trans (probe_pixelStep_hash h.e_wf (h.prev_eq ▸ hprev)).symm
    exact ⟨_, _, exec_zeroPixel hm h4, exec_zeroPixel (h.mode_eq ▸ hm) (h.channels_eq ▸ h4),
      h.after_pixelStep zeroPixel, hslot⟩
  · obtain ⟨n, k, hz⟩ := runAll_takePixels hcz z
    obtain ⟨n', k', he⟩ := runAll_takePixels hce e
    rw [← hpx] at he
    obtain ⟨⟨bytes, hzo, hzc, heo, hec⟩, hagree, hslot⟩ := h.after_takePixels (pixelsOf cmdsZ) h0
    exact ⟨_, _, bytes, hz, he, hzo, hzc, heo, hec, hagree.withSink n n' k k', hslot⟩

/-! ## A 3-channel encode -/

/-- Two blocks in the same place of a 3-channel encode that have put out the same stream, `z` built with CACHE_INIT = ZERO
and `e` with EMPTY. -/
structure ThreeChannelTwins (z e : State) : Prop extends EncodersAgree z e where
  channels_three : z.descCh = 3
  out_eq : z.out = e.out
  sent_eq : z.sent = e.sent
  sink_eq : z.sink = e.sink

/-- Two blocks that START leaves under the two values of CACHE_INIT agree: no slot is written yet (41_color_cache.md
R125). -/
theorem threeChannelTwins_afterStart (w h : BitVec 32) (cs : BitVec 1) (s : State) :
    ThreeChannelTwins (afterStart w h 3 cs { s with cacheInit := .zero })
      (afterStart w h 3 cs { s with cacheInit := .empty }) where
  zero_built := rfl
  empty_built := rfl
  zero_canonical := rfl
  empty_canonical := rfl
  mode_eq := rfl
  err_eq := rfl
  channels_eq := rfl
  remain_eq := rfl
  prev_eq := rfl
  run_eq := rfl
  slots_agree j := .inr ⟨allInitial_nil .zero j, allInitial_nil .empty j⟩
  channels_three := rfl
  out_eq := rfl
  sent_eq := rfl
  sink_eq := rfl

section
variable {z e : State} (h : ThreeChannelTwins z e)
include h

/-- A 3-channel encode normalises every alpha to 255, so the pixel (0,0,0,0) never arises (41_color_cache.md R128). -/
theorem ThreeChannelTwins.after_takePixel (pin : Pixel) : ThreeChannelTwins (takePixel z pin) (takePixel e pin) := by
  have hopaque : normalise z.descCh pin ≠ zeroPixel := by
    rw [h.channels_three]
    intro hp
    have ha := normalise_three pin
    rw [hp] at ha
    cases ha
  obtain ⟨hzc, hzs, hzk⟩ := takePixel_frame z pin
  obtain ⟨-, hes, hek⟩ := takePixel_frame e pin
  have hbytes := h.appendedSame_takePixel fun hp => absurd hp hopaque
  exact ⟨h.toEncodersAgree.after_takePixel pin, hzc.trans h.channels_three, hbytes.out_eq h.out_eq,
    by rw [hzs, hes, h.sent_eq], by rw [hzk, hek, h.sink_eq]⟩

theorem ThreeChannelTwins.outValid_eq : outValid z = outValid e := by
  unfold outValid
  rw [h.sent_eq, h.out_eq, h.mode_eq]

/-- A DRAIN hands the sinks the same transfer. -/
theorem ThreeChannelTwins.after_transferByte : ThreeChannelTwins (transferByte z) (transferByte e) :=
  { h with
    sent_eq := congrArg (· + 1) h.sent_eq
    sink_eq := by
      simp only [transferByte_sink, outByte, outLast]
      rw [h.sink_eq, h.out_eq, h.sent_eq, h.mode_eq] }

theorem ThreeChannelTwins.after_exec {i : Instr} (hi : isPixelOrDrain i = true) :
    ∃ t u, exec i z = .next t ∧ exec i e = .next u ∧ ThreeChannelTwins t u := by
  obtain ⟨r, g, b, a, rfl⟩ | rfl := isPixelOrDrain_cases hi
  · exact ⟨_, _, exec_pixel_takePixel r g b a z, exec_pixel_takePixel r g b a e, h.after_takePixel _⟩
  · cases hv : outValid z
    · have hve : outValid e = false := h.outValid_eq ▸ hv
      exact ⟨z, e, if_neg (Bool.eq_false_iff.1 hv), if_neg (Bool.eq_false_iff.1 hve), h⟩
    · have hve : outValid e = true := h.outValid_eq ▸ hv
      exact ⟨_, _, if_pos hv, if_pos hve, h.after_transferByte⟩

end

theorem ThreeChannelTwins.after_runAll {cmds : List Instr} (hc : ∀ i ∈ cmds, isPixelOrDrain i = true) {z e : State}
    (h : ThreeChannelTwins z e) :
    ∃ t u, runAll cmds z = .next t ∧ runAll cmds e = .next u ∧ ThreeChannelTwins t u := by
  induction cmds generalizing z e with
  | nil => exact ⟨z, e, rfl, rfl, h⟩
  | cons i is ih =>
    rw [List.forall_mem_cons] at hc
    obtain ⟨hi, his⟩ := hc
    obtain ⟨z', e', hz, he, h'⟩ := h.after_exec hi
    rw [runAll_cons_next hz, runAll_cons_next he]
    exact ih his h'

/-- Settles O58: START leaves twins, and every PIXEL and DRAIN keeps them. -/
theorem cacheInitUnobservableThreeChannel : Obligations.CacheInitUnobservableThreeChannel := by
  intro w h cs cmds s hm hs hw
  have hstart : ∀ ci : CacheInit, exec (.start w h 3 cs) { s with cacheInit := ci } =
      .next (afterStart w h 3 cs { s with cacheInit := ci }) :=
    fun _ => exec_start_valid cs ((cfgReady_iff _).2 ⟨hm, hs⟩) hw.valid
  obtain ⟨t, u, ht, hu, htwins⟩ := (threeChannelTwins_afterStart w h cs s).after_runAll hw.commands
  have hstatus : status t = status u := by rw [status, status, htwins.err_eq, htwins.mode_eq]
  exact ⟨t, u, (runAll_cons_next (hstart .zero)).trans ht, (runAll_cons_next (hstart .empty)).trans hu,
    htwins.out_eq, htwins.sink_eq, hstatus⟩

end Sys2Proof.Machine
end

section
/-! The pixel selector (42_pixel_selector.md): the token a PIXEL gets, the bytes of that token by value, and what every
PIXEL step leaves. -/

namespace Sys2Proof.Machine

/-! ## The bytes of a miss's token, by value -/

/-- The byte of a difference token, by its biased fields (43_opcode_serializer.md R167). -/
theorem unitBytes_opDiff (r g b : BitVec 2) :
    unitBytes (.opDiff r g b) = [BitVec.ofInt 8 (0x40 + r.toNat * 16 + g.toNat * 4 + b.toNat)] := by
  revert r g b
  decide

/-- The two bytes of a luma token, by its biased fields (43_opcode_serializer.md R168). -/
theorem unitBytes_opLuma (g : BitVec 6) (r b : BitVec 4) :
    unitBytes (.opLuma g r b) = [BitVec.ofInt 8 (0x80 + g.toNat), BitVec.ofInt 8 (r.toNat * 16 + b.toNat)] := by
  have hfirst : ∀ x : BitVec 6, (0b10#2 ++ x : BitVec 8) = BitVec.ofInt 8 (0x80 + x.toNat) := by decide
  have hsecond : ∀ x y : BitVec 4, (x ++ y : BitVec 8) = BitVec.ofInt 8 (x.toNat * 16 + y.toNat) := by decide
  rw [← hfirst, ← hsecond]
  rfl

/-- A biased value in range is its field's value (30_encoding.md R75). -/
theorem biased_toNat {n : Nat} {bias x : Int} (h0 : 0 ≤ x + bias) (h1 : x + bias < 2 ^ n) :
    ((biased n bias x).toNat : Int) = x + bias := toNat_ofInt_of_range h0 h1

section
variable {p prev : Pixel} {dr dg db : Int} (ha : p.a = prev.a) (hr : dr = delta p.r prev.r)
  (hg : dg = delta p.g prev.g) (hb : db = delta p.b prev.b)
include ha hr hg hb

/-- With the alpha unchanged and the small ranges met a miss's token is OP_DIFF (43_opcode_serializer.md R162, R167). -/
theorem unitBytes_missToken_diff (hs : (-2 ≤ dr ∧ dr ≤ 1) ∧ (-2 ≤ dg ∧ dg ≤ 1) ∧ (-2 ≤ db ∧ db ≤ 1)) :
    unitBytes (missToken p prev) = [BitVec.ofInt 8 (0x40 + (dr + 2) * 16 + (dg + 2) * 4 + (db + 2))] := by
  subst hr hg hb
  rw [missToken, if_pos ((alphaSame_iff p prev).2 ha), if_pos ((smallDiff_iff _).2 hs), unitBytes_opDiff]
  simp only [deltas]
  rw [biased_toNat (by omega) (by omega), biased_toNat (by omega) (by omega), biased_toNat (by omega) (by omega)]

/-- With the alpha unchanged and the luma ranges met, but not the small ones, it is OP_LUMA (43_opcode_serializer.md R163,
R168). -/
theorem unitBytes_missToken_luma (hs : ¬ ((-2 ≤ dr ∧ dr ≤ 1) ∧ (-2 ≤ dg ∧ dg ≤ 1) ∧ (-2 ≤ db ∧ db ≤ 1)))
    (hl : (-32 ≤ dg ∧ dg ≤ 31) ∧ (-8 ≤ dr - dg ∧ dr - dg ≤ 7) ∧ (-8 ≤ db - dg ∧ db - dg ≤ 7)) :
    unitBytes (missToken p prev) =
      [BitVec.ofInt 8 (0x80 + (dg + 32)), BitVec.ofInt 8 ((dr - dg + 8) * 16 + (db - dg + 8))] := by
  subst hr hg hb
  rw [missToken, if_pos ((alphaSame_iff p prev).2 ha), if_neg ((smallDiff_iff _).not.2 hs), if_pos ((luma_iff _).2 hl),
    unitBytes_opLuma]
  simp only [deltas]
  rw [biased_toNat (by omega) (by omega), biased_toNat (by omega) (by omega), biased_toNat (by omega) (by omega)]

/-- With the alpha unchanged and neither the small nor the luma ranges met it is OP_RGB (43_opcode_serializer.md R165,
R169). -/
theorem missToken_rgb (hs : ¬ ((-2 ≤ dr ∧ dr ≤ 1) ∧ (-2 ≤ dg ∧ dg ≤ 1) ∧ (-2 ≤ db ∧ db ≤ 1)))
    (hl : ¬ ((-32 ≤ dg ∧ dg ≤ 31) ∧ (-8 ≤ dr - dg ∧ dr - dg ≤ 7) ∧ (-8 ≤ db - dg ∧ db - dg ≤ 7))) :
    missToken p prev = .opRgb p.r p.g p.b := by
  subst hr hg hb
  rw [missToken, if_pos ((alphaSame_iff p prev).2 ha), if_neg ((smallDiff_iff _).not.2 hs),
    if_neg ((luma_iff _).not.2 hl)]

end

/-- With the alpha changed it is OP_RGBA, whatever the deltas (43_opcode_serializer.md R165, R170). -/
theorem missToken_rgba {p prev : Pixel} (ha : p.a ≠ prev.a) : missToken p prev = .opRgba p.r p.g p.b p.a :=
  if_neg ((alphaSame_iff p prev).not.2 ha)

/-- OP_RGBA stands for a change of alpha only (43_opcode_serializer.md R165). -/
theorem missToken_ne_opRgba {p prev : Pixel} (ha : p.a = prev.a) (x y z u : Byte) :
    missToken p prev ≠ .opRgba x y z u := by
  rw [missToken, if_pos ((alphaSame_iff p prev).2 ha)]
  repeat' split
  all_goals simp

/-! ## A pixel that joins the run -/

/-- RUN is at most 61, so adding 1 does not wrap and reaches RUN_MAX at the length 62 (42_pixel_selector.md R144). -/
theorem run_add_one_eq_runMax_iff {n : BitVec 6} (hn : n.toNat ≤ 61) : n + 1 = runMax ↔ n.toNat + 1 = 62 := by
  change n + 1#6 = 62#6 ↔ _
  bv_omega

/-- Settles O20: the step on a pixel that joins the run, by whether the run is flushed. -/
theorem pixelJoinsRun : Obligations.PixelJoinsRun := by
  intro r g b a s hm hr hp
  have hmax := run_add_one_eq_runMax_iff hr
  rw [exec_pixel_encoding r g b a hm, hp, pixelStep_join rfl, unitBytes_opRun]
  refine ⟨fun hlt h1 => ?_, fun hflush => ?_⟩
  · rw [if_neg (not_or.2 ⟨hmax.not.2 hlt.ne, h1⟩)]
  · rw [if_pos (hflush.imp_left hmax.2)]
    rfl

/-! ## A pixel that differs from PREV -/

section
variable {r g b a : Byte} {p : Pixel} {s : State} (hm : s.mode = .encoding)
  (hp : p = normalise s.descCh ⟨r, g, b, a⟩) (hprev : p ≠ s.prev)
include hm hp hprev

/-- The pending run's byte, then the pixel's own token, then the end marker (42_pixel_selector.md R145, R146, R149). -/
theorem exec_pixel_own : exec (.pixel r g b a) s = .next
    (afterPixel p (pendingRunBytes s ++ unitBytes (ownToken p s) ++ lastPixelBytes s) 0 (ownCache p s) s) := by
  rw [exec_pixel_encoding r g b a hm, ← hp, pixelStep_own hprev, pendingRunTokens_bytes]

/-- On a miss the pixel is stored, and its own token is the miss's (42_pixel_selector.md R146). -/
theorem exec_pixel_miss (hw : Memory.wf s.cacheInit s.cache = true) (hmiss : probe (hashOf p) s ≠ some p) :
    ∃ m : Memory, StoredIn p s m ∧ exec (.pixel r g b a) s = .next
      (afterPixel p (pendingRunBytes s ++ unitBytes (missToken p s.prev) ++ lastPixelBytes s) 0 m s) := by
  obtain ⟨htoken, hcache⟩ := own_of_miss hmiss
  refine ⟨_, storedIn_write hw, ?_⟩
  rw [exec_pixel_own hm hp hprev, htoken, hcache]

end

/-- Settles O21: on a hit the pixel's own token is OP_INDEX, and its own cache is the cache as it was. -/
theorem pixelHitEmitsIndex : Obligations.PixelHitEmitsIndex := by
  intro r g b a p s hm _ hp hprev hhit
  obtain ⟨htoken, hcache⟩ := own_of_hit hhit
  have hbyte : ∀ x : BitVec 6, unitBytes (.opIndex x) = [BitVec.ofNat 8 x.toNat] := by decide
  rw [exec_pixel_own hm hp hprev, htoken, hcache, hbyte]

/-- Settles O22: a miss whose token is OP_DIFF. -/
theorem pixelMissEmitsDiff : Obligations.PixelMissEmitsDiff := by
  intro r g b a p s hm _ hw hp hprev hmiss ha hr hg hb
  rw [← unitBytes_missToken_diff ha rfl rfl rfl ⟨hr, hg, hb⟩]
  exact exec_pixel_miss hm hp hprev hw hmiss

/-- Settles O23: a miss whose token is OP_LUMA. -/
theorem pixelMissEmitsLuma : Obligations.PixelMissEmitsLuma := by
  intro r g b a p dr dg db s hm _ hw hp hprev hmiss ha hr hg hb hsmall hldg hldr hldb
  rw [← unitBytes_missToken_luma ha hr hg hb hsmall ⟨hldg, hldr, hldb⟩]
  exact exec_pixel_miss hm hp hprev hw hmiss

/-- Settles O24: a miss whose token is OP_RGB. -/
theorem pixelMissEmitsRgb : Obligations.PixelMissEmitsRgb := by
  intro r g b a p dr dg db s hm _ hw hp hprev hmiss ha hr hg hb hsmall hluma
  have htoken := missToken_rgb ha hr hg hb hsmall hluma
  obtain ⟨m, hstored, hx⟩ := exec_pixel_miss hm hp hprev hw hmiss
  rw [htoken] at hx
  exact ⟨m, hstored, hx⟩

/-- Settles O25: a changed alpha makes the pixel differ from PREV, and its token OP_RGBA. -/
theorem pixelMissEmitsRgba : Obligations.PixelMissEmitsRgba := by
  intro r g b a p s hm _ hw hp hmiss ha
  have hprev : p ≠ s.prev := fun h => ha (congrArg Pixel.a h)
  obtain ⟨m, hstored, hx⟩ := exec_pixel_miss hm hp hprev hw hmiss
  rw [missToken_rgba ha] at hx
  exact ⟨m, hstored, hx⟩

/-! ## A PIXEL on its turn -/

/-- Settles O26: on its turn the beat is taken where `pix_ready` is 1 and stays offered where it is 0; RESET leaves the
host's offers. -/
theorem pixelHeldStaysOffered : Obligations.PixelHeldStaysOffered := by
  intro s b bs ts hb ho
  obtain ⟨-, hpix, -⟩ := stepRunsDecodedCommand s (decodePixel b) ts
  have henabled : enabled (decodePixel b) s = pixReady s := rfl
  refine ⟨fun ht hm => ?_, fun ht hm => ?_, fun ht => ?_⟩
  · rw [hpix b bs hb ht ho rfl, if_neg (by simp [henabled, pixReady, hm])]
    exact exec_pixel_held _ _ _ _ hm
  · rw [hpix b bs hb ht ho rfl, if_pos (by simp [henabled, pixReady, hm])]
  · obtain ⟨-, -, -, -, hrst, -⟩ := stepRunsDecodedCommand s .reset ts
    exact ⟨hrst hb ht, _, hrst hb ht, ho, rfl⟩

/-! ## What every PIXEL step leaves -/

/-- Settles O27: the step's fields, PIX_REMAIN reaching 0 exactly from 1. -/
theorem pixelUpdatesPrevAndCount : Obligations.PixelUpdatesPrevAndCount := by
  intro r g b a s hm
  refine ⟨_, exec_pixel_encoding r g b a hm, pixelStep_prev _ s, pixelStep_pixRemain _ s, ?_, ?_⟩
  · rw [pixelStep_eq, afterPixel_mode_done_iff _ _ _ _ hm]
    exact (last_iff s.pixRemain).symm
  · rw [pixelStep_eq, afterPixel_mode_encoding_iff _ _ _ _ hm]
    exact (last_iff s.pixRemain).not.symm

/-! ## The tokens of a PIXEL step, counted -/

theorem pendingRunTokens_length_le (s : State) : (pendingRunTokens s).length ≤ 1 := by
  unfold pendingRunTokens
  split <;> simp

/-- A pending run's token is an OP_RUN. -/
theorem opRun_of_mem_pendingRunTokens {s : State} {k : Instr} (hk : k ∈ pendingRunTokens s) :
    ∃ l : BitVec 6, k = .opRun l := by
  unfold pendingRunTokens at hk
  split at hk
  · simp at hk
  · exact ⟨_, List.mem_singleton.1 hk⟩

/-- A PIXEL's tokens are at most one OP_RUN, then at most the pixel's own token; that one only for a pixel that differs
from PREV (42_pixel_selector.md R149). -/
theorem pixelTokens_split (p : Pixel) (s : State) :
    ∃ flush one, pixelTokens p s = flush ++ one ∧ flush.length ≤ 1 ∧ one.length ≤ 1 ∧
      (∀ k ∈ flush, ∃ l : BitVec 6, k = .opRun l) ∧ (∀ k ∈ one, k = ownToken p s) := by
  unfold pixelTokens
  split
  · split
    · exact ⟨[.opRun s.run], [], rfl, le_rfl, by simp, by simp, by simp⟩
    · exact ⟨[], [], rfl, by simp, by simp, by simp, by simp⟩
  · exact ⟨pendingRunTokens s, [ownToken p s], rfl, pendingRunTokens_length_le s, le_rfl,
      fun _ hk => opRun_of_mem_pendingRunTokens hk, fun _ hk => List.mem_singleton.1 hk⟩

/-- A PIXEL step appends its tokens' bytes, and the end marker after the last pixel (42_pixel_selector.md R149). -/
theorem pixelStep_out (p : Pixel) (s : State) :
    (pixelStep p s).out = s.out ++ (pixelTokens p s).flatMap unitBytes ++ lastPixelBytes s := by
  rw [pixelStep_eq, List.append_assoc]
  rfl

/-- Settles O29: the flush and the pixel's own token, and what they stand for. -/
theorem pixelStepTokens : Obligations.PixelStepTokens := by
  intro r g b a s hm hr
  rw [exec_pixel_encoding r g b a hm]
  generalize normalise s.descCh ⟨r, g, b, a⟩ = p
  obtain ⟨flush, one, hsplit, hflush, hone, hruns, hown⟩ := pixelTokens_split p s
  obtain ⟨run, cache, hstep, hsum, -⟩ := pixelStep_pixelTokens hr p
  have hlegal := pixelTokens_legal hr p
  rw [hsplit] at hsum hlegal
  refine ⟨_, flush, one, rfl, hflush, hone, hruns, fun k hk => ?_, fun k hk => (hlegal k hk).2, ?_, ?_⟩
  · rw [hown k hk]
    exact ⟨ownToken_isToken p s, ownToken_ne_opRun p s⟩
  · rw [pixelStep_out, hsplit, List.flatMap_append, ← List.append_assoc]
  · rw [hstep]
    exact hsum

/-! ## The bytes of a PIXEL step, counted -/

theorem pendingRunBytes_length (s : State) : (pendingRunBytes s).length = if s.run = 0 then 0 else 1 := by
  unfold pendingRunBytes
  split <;> rfl

theorem lastPixelBytes_length_le (s : State) : (lastPixelBytes s).length ≤ 8 := by
  unfold lastPixelBytes
  split <;> simp

/-- A pixel that joins the run emits the run's byte if the run is flushed, else nothing (42_pixel_selector.md R150). -/
theorem pixelTokens_bytes_length_join {p : Pixel} {s : State} (hp : p = s.prev) :
    ((pixelTokens p s).flatMap unitBytes).length = if s.run + 1 = runMax ∨ s.pixRemain = 1 then 1 else 0 := by
  rw [pixelTokens, if_pos hp]
  split <;> rfl

/-- A pixel that differs from PREV emits the pending run's byte, if any, and its own token (42_pixel_selector.md R150). -/
theorem pixelTokens_bytes_length_own {p : Pixel} {s : State} (hp : p ≠ s.prev) :
    ((pixelTokens p s).flatMap unitBytes).length =
      (if s.run = 0 then 0 else 1) + (unitBytes (ownToken p s)).length := by
  rw [pixelTokens, if_neg hp, List.flatMap_append, pendingRunTokens_bytes, List.length_append, pendingRunBytes_length,
    List.flatMap_singleton]

/-- Settles O28: the bytes of the step's tokens, and at most 8 more after the last pixel. -/
theorem pixelStepByteCounts : Obligations.PixelStepByteCounts := by
  intro r g b a p s hm hr hp
  have hlast := lastPixelBytes_length_le s
  refine ⟨_, _, by rw [exec_pixel_encoding r g b a hm, ← hp], pixelStep_out p s, ?_⟩
  by_cases hprev : p = s.prev
  · have hmax := run_add_one_eq_runMax_iff hr
    rw [pixelTokens_bytes_length_join hprev]
    refine ⟨fun _ hlt h1 => if_neg (not_or.2 ⟨hmax.not.2 hlt.ne, h1⟩), fun _ hflush => if_pos (hflush.imp_left hmax.2),
      fun h => absurd hprev h, fun h => absurd hprev h, ?_⟩
    split <;> omega
  · have hlen := unitBytes_length_of_isToken (ownToken_isToken p s)
    simp only [List.mem_cons, List.not_mem_nil, or_false] at hlen ⊢
    rw [pixelTokens_bytes_length_own hprev]
    refine ⟨fun h => absurd h hprev, fun h => absurd h hprev, fun _ h0 => ?_, fun _ h0 => ?_, ?_⟩
    · rw [if_pos h0]
      omega
    · rw [if_neg h0]
      omega
    · split <;> omega

/-! ## A 3-channel encode -/

/-- OP_RGBA is no token of a pixel with PREV's alpha (43_opcode_serializer.md R165). -/
theorem ownToken_ne_opRgba {p : Pixel} {s : State} (ha : p.a = s.prev.a) (x y z u : Byte) :
    ownToken p s ≠ .opRgba x y z u := by
  unfold ownToken
  split
  · simp
  · exact missToken_ne_opRgba ha x y z u

/-- Settles O30: Normalise leaves every alpha 255, which is PREV's, so that the pixel's own token is no OP_RGBA. -/
theorem threeChannelIgnoresAlpha : Obligations.ThreeChannelIgnoresAlpha := by
  intro r g b a a' s hinv hm h3
  rw [exec_pixel_encoding r g b a hm, exec_pixel_encoding r g b a' hm, h3]
  refine ⟨rfl, ?_⟩
  have ha : (normalise 3 ⟨r, g, b, a⟩).a = s.prev.a := (hinv.alpha_opaque hm h3).symm
  generalize normalise 3 ⟨r, g, b, a⟩ = p at ha ⊢
  obtain ⟨flush, one, hsplit, hflush, hone, hruns, hown⟩ := pixelTokens_split p s
  refine ⟨_, pixelTokens p s, rfl, ?_, pixelStep_out p s, ?_, fun k hk => ?_⟩
  · rw [pixelStep_prev, ha]
    exact hinv.alpha_opaque hm h3
  · rw [hsplit, List.length_append]
    omega
  · obtain ⟨htoken, hwf⟩ := pixelTokens_legal hinv.run_bound p k hk
    refine ⟨htoken, hwf, fun x y z u => ?_⟩
    rw [hsplit] at hk
    rcases List.mem_append.1 hk with hk | hk
    · obtain ⟨l, rfl⟩ := hruns k hk
      simp
    · rw [hown k hk]
      exact ownToken_ne_opRgba ha x y z u

end Sys2Proof.Machine
end

section
/-! The op-code serializer (43_opcode_serializer.md): what wrapping to signed 8 bits does to a difference, the ranges of
SmallDiff and Luma in 8-bit arithmetic, and the token rows as instructions of their own (log entry 4), by value. -/

namespace Sys2Proof.Machine

/-! ## Wrapped differences -/

/-- Wrapping to 8 bits and reading as two's complement picks the one integer in [-128, 127] congruent modulo 256
(00_scope.md R8). -/
theorem sext8_wrap8_eq_iff (x d : Int) : sext8 (wrap8 x) = d ↔ -128 ≤ d ∧ d ≤ 127 ∧ (d - x) % 256 = 0 := by
  have hspec := sext8_wrap8_spec x
  constructor
  · rintro rfl
    exact hspec
  · omega

/-- Settles O52: a delta is a wrapped difference of two bytes. -/
theorem deltaIsWrappedDifference : Obligations.DeltaIsWrappedDifference :=
  ⟨fun _ _ _ => sext8_wrap8_eq_iff .., by decide⟩

/-! ## SmallDiff in hardware -/

/-- The biased delta in 8 bits, computed from the bytes alone (43_opcode_serializer.md R162). -/
theorem wrap8_delta_add_two (c q : Byte) : wrap8 (delta c q + 2) = c - q + 2 := by
  have hd := delta_spec c q
  have hq := q.isLt
  have htwo : (2 : Byte).toNat = 2 := rfl
  apply BitVec.eq_of_toNat_eq
  simp only [wrap8, BitVec.toNat_ofInt, BitVec.toNat_add, BitVec.toNat_sub, htwo]
  omega

/-- The small range of one channel is one unsigned comparison (43_opcode_serializer.md R162). -/
theorem delta_small_iff (c q : Byte) : (-2 ≤ delta c q ∧ delta c q ≤ 1) ↔ (c - q + 2).toNat ≤ 3 := by
  obtain ⟨hlo, hhi, -⟩ := delta_spec c q
  rw [← wrap8_delta_add_two, wrap8, BitVec.toNat_ofInt]
  omega

/-- The 2-bit field of OP_DIFF is the low end of the hardware's sum (43_opcode_serializer.md R162). -/
theorem biased_delta_eq_setWidth (c q : Byte) : biased 2 2 (delta c q) = (c - q + 2).setWidth 2 := by
  rw [← wrap8_delta_add_two]
  apply BitVec.eq_of_toNat_eq
  simp only [biased, wrap8, BitVec.toNat_setWidth, BitVec.toNat_ofInt]
  omega

/-- Settles O53: SmallDiff and its fields channel by channel; the fields agree even where SmallDiff fails. -/
theorem smallDiffHardwareForm : Obligations.SmallDiffHardwareForm := by
  intro p q
  constructor
  · simp only [smallDiff_iff, deltas, delta_small_iff]
  · exact fun _ => ⟨biased_delta_eq_setWidth .., biased_delta_eq_setWidth .., biased_delta_eq_setWidth ..⟩

/-! ## Luma under wrapping -/

/-- A delta minus a green delta in [-32, 31] lies in [-159, 159]: too near to 0 for a multiple of 256 to move it into or
out of [-8, 7] (43_opcode_serializer.md R161). -/
theorem wrapped_luma_range_iff {c g : Int} (hc : -128 ≤ c ∧ c ≤ 127) (hg : -32 ≤ g ∧ g ≤ 31) :
    (-8 ≤ sext8 (wrap8 (c - g)) ∧ sext8 (wrap8 (c - g)) ≤ 7) ↔ (-8 ≤ c - g ∧ c - g ≤ 7) := by
  have hspec := sext8_wrap8_spec (c - g)
  omega

/-- A value that fits in signed 8 bits is not changed by wrapping (00_scope.md R8). -/
theorem sext8_wrap8_of_range {x : Int} (h0 : -128 ≤ x) (h1 : x ≤ 127) : sext8 (wrap8 x) = x :=
  (sext8_wrap8_eq_iff x x).2 ⟨h0, h1, by simp⟩

theorem luma_of_smallDiff {d : DeltaRgb} (hs : smallDiff d = true) : luma d = true := by
  rw [smallDiff_iff] at hs
  rw [luma_iff]
  omega

/-- Settles O54: with the green delta in [-32, 31] wrapping keeps both ranges, and in them the values. -/
theorem lumaWrapIrrelevant : Obligations.LumaWrapIrrelevant := by
  rintro p q d rfl
  obtain ⟨hr0, hr1, -⟩ := delta_spec p.r q.r
  obtain ⟨hb0, hb1, -⟩ := delta_spec p.b q.b
  refine ⟨?_, fun hl => ?_, luma_of_smallDiff⟩
  · rw [luma_iff]
    exact and_congr_right fun hg =>
      and_congr (wrapped_luma_range_iff ⟨hr0, hr1⟩ hg).symm (wrapped_luma_range_iff ⟨hb0, hb1⟩ hg).symm
  · obtain ⟨-, ⟨hr2, hr3⟩, hb2, hb3⟩ := (luma_iff _).1 hl
    rw [sext8_wrap8_of_range (by omega) (by omega), sext8_wrap8_of_range (by omega) (by omega)]
    exact ⟨rfl, rfl⟩

/-! ## The token rows -/

/-- The byte of a cache hit's token is its index (43_opcode_serializer.md R166). -/
theorem unitBytes_opIndex (idx : BitVec 6) : unitBytes (.opIndex idx) = [BitVec.ofNat 8 idx.toNat] := by
  revert idx
  decide

/-- Settles O8: the row appends its encoding, which is the index. -/
theorem opIndexEmitsHash : Obligations.OpIndexEmitsHash := by
  intro idx s
  rw [unitsEmitTheirEncoding _ rfl rfl, unitBytes_opIndex]
  rfl

/-- Settles O9: the row appends its encoding; in range each biased field has the value of its sum. -/
theorem opDiffEmitsBiasedDeltas : Obligations.OpDiffEmitsBiasedDeltas := by
  intro dr dg db s hr0 hr1 hg0 hg1 hb0 hb1
  rw [unitsEmitTheirEncoding _ rfl rfl, unitBytes_opDiff, toNat_ofInt_of_range (by omega) (by omega),
    toNat_ofInt_of_range (by omega) (by omega), toNat_ofInt_of_range (by omega) (by omega)]
  rfl

/-- Settles O10: the row appends its encoding; in range each biased field has the value of its sum. -/
theorem opLumaEmitsBiasedDeltas : Obligations.OpLumaEmitsBiasedDeltas := by
  intro dr dg db s hg0 hg1 hr0 hr1 hb0 hb1
  rw [unitsEmitTheirEncoding _ rfl rfl, unitBytes_opLuma, toNat_ofInt_of_range (by omega) (by omega),
    toNat_ofInt_of_range (by omega) (by omega), toNat_ofInt_of_range (by omega) (by omega)]
  rfl

/-- FlushRun in closed form: the byte of the run's field, and RUN cleared (43_opcode_serializer.md R164). -/
theorem emitRun_eq_byte (l : BitVec 6) (s : State) :
    emitRun l s = { s with
      out := s.out ++ [BitVec.ofNat 8 (0xC0 + l.toNat)], outCount := s.outCount + 1, run := 0 } := by
  rw [emitRun_eq, emitAll_eq, unitBytes_opRun]
  rfl

/-- A legal OP_RUN row is the operation FlushRun uses (43_opcode_serializer.md R164; log entry 4). -/
theorem exec_opRun_of_le {l : BitVec 6} (hl : l.toNat ≤ 61) (s : State) : exec (.opRun l) s = .next (emitRun l s) :=
  if_pos (decide_eq_true hl)

/-- Settles O11: the field of a run of n pixels is n - 1, whether it is given or taken from RUN. -/
theorem opRunEmitsAndClearsRun : Obligations.OpRunEmitsAndClearsRun := by
  intro n s h1 h62
  refine ⟨?_, fun hrun => ?_, ?_⟩
  · have hfield : (BitVec.ofNat 6 (n - 1)).toNat = n - 1 := by
      rw [BitVec.toNat_ofNat]
      omega
    rw [exec_opRun_of_le (by omega), emitRun_eq_byte, hfield]
  · have hne : s.run ≠ 0 := by bv_omega
    have hfield := run_sub_one_toNat hne
    refine ⟨exec_opRun_of_le (by omega) s, ?_⟩
    rw [flushRun, emitRun_eq_byte, hfield]
  · rw [BitVec.toNat_ofNat]
    omega

/-- Settles O12: each row appends its encoding, the tag and the channels. -/
theorem rawTokensEmitChannels : Obligations.RawTokensEmitChannels := fun p s =>
  ⟨unitsEmitTheirEncoding (.opRgb p.r p.g p.b) rfl rfl s,
    unitsEmitTheirEncoding (.opRgba p.r p.g p.b p.a) rfl rfl s⟩

end Sys2Proof.Machine
end

section
/-! The size of a whole encode and its decoding (44_byte_packer_termination.md R195, R197): the bytes of a list of tokens
counted, the pixels a list of tokens stands for, and that a run of PIXELs emits tokens that stand for its pixels. -/

namespace Sys2Proof.Machine

/-! ## The bytes of a list of tokens, counted -/

/-- A token has a byte for every 62 of its pixels, and at most five bytes for each (30_encoding.md R74, R77). -/
theorem LegalToken.byte_bounds {k : Instr} (hk : LegalToken k) :
    1 ≤ (unitBytes k).length ∧ tokenPixels k ≤ 62 * (unitBytes k).length ∧
      (unitBytes k).length ≤ 5 * tokenPixels k := by
  obtain ⟨ht, hw⟩ := hk
  cases k with
  | opRun l =>
    have hl : l.toNat ≤ 61 := of_decide_eq_true hw
    simp only [unitBytes, encode, tokenPixels, List.length_singleton]
    omega
  | opIndex _ => simp [unitBytes, encode, tokenPixels]
  | opDiff _ _ _ => simp [unitBytes, encode, tokenPixels]
  | opLuma _ _ _ => simp [unitBytes, encode, tokenPixels]
  | opRgb _ _ _ => simp [unitBytes, encode, tokenPixels]
  | opRgba _ _ _ _ => simp [unitBytes, encode, tokenPixels]
  | header _ _ _ _ => cases ht
  | endMarker => cases ht
  | start _ _ _ _ => cases ht
  | pixel _ _ _ _ => cases ht
  | drain => cases ht
  | sinkfail => cases ht
  | reset => cases ht

/-- The bounds of one token, summed over a list of them (44_byte_packer_termination.md R195). -/
theorem legalTokens_byte_bounds {toks : List Instr} (ht : ∀ k ∈ toks, LegalToken k) :
    toks.length ≤ (toks.flatMap unitBytes).length ∧
      (toks.map tokenPixels).sum ≤ 62 * (toks.flatMap unitBytes).length ∧
      (toks.flatMap unitBytes).length ≤ 5 * (toks.map tokenPixels).sum := by
  induction toks with
  | nil => simp
  | cons k ks ih =>
    rw [List.forall_mem_cons] at ht
    obtain ⟨hk, hks⟩ := ht
    obtain ⟨h1, hlow, hhigh⟩ := hk.byte_bounds
    obtain ⟨ih1, ihlow, ihhigh⟩ := ih hks
    simp only [List.flatMap_cons, List.length_append, List.length_cons, List.map_cons, List.sum_cons]
    omega

/-- Settles O56: the stream's layout, and the bounds of its tokens' bytes. -/
theorem encodeSizeBounds : Obligations.EncodeSizeBounds := by
  intro w h ch cs cmds s hm hs hw
  obtain ⟨t, toks, ht, htm, hto, htl, -, -, hsum⟩ := streamLayout w h ch cs cmds s hm hs hw
  obtain ⟨-, hlow, hhigh⟩ := legalTokens_byte_bounds htl
  rw [hsum] at hlow hhigh
  refine ⟨t, (toks.flatMap unitBytes).length, ht, htm, ?_, by omega, hhigh⟩
  rw [hto, List.length_append, List.length_append]
  rfl

/-! ## The pixels a list of tokens stands for -/

/-- From the previous pixel `prev` and the cache `m`, the test decoder reads the tokens as these pixels: an OP_RUN repeats
`prev`, any other token gives one pixel and stores it (44_byte_packer_termination.md R197). -/
inductive TokensRead (ci : CacheInit) : Pixel → Memory → List Instr → List Pixel → Prop where
  | nil {prev : Pixel} {m : Memory} : TokensRead ci prev m [] []
  | run {prev : Pixel} {m : Memory} {l : BitVec 6} {ks : List Instr} {px : List Pixel} (legal : LegalToken (.opRun l))
      (rest : TokensRead ci prev m ks px) :
      TokensRead ci prev m (.opRun l :: ks) (List.replicate (l.toNat + 1) prev ++ px)
  | pixel {prev p : Pixel} {m : Memory} {k : Instr} {ks : List Instr} {px : List Pixel} (legal : LegalToken k)
      (notRun : ∀ l, k ≠ .opRun l) (read : tokenPixel ci prev m k = some p)
      (rest : TokensRead ci p (Memory.write ci (hashOf p).toNat p m) ks px) :
      TokensRead ci prev m (k :: ks) (p :: px)

theorem TokensRead.legal {ci : CacheInit} {prev : Pixel} {m : Memory} {toks : List Instr} {px : List Pixel}
    (hr : TokensRead ci prev m toks px) : ∀ k ∈ toks, LegalToken k := by
  induction hr with
  | nil => simp
  | run legal _ ih => exact List.forall_mem_cons.2 ⟨legal, ih⟩
  | pixel legal _ _ _ ih => exact List.forall_mem_cons.2 ⟨legal, ih⟩

/-! ## The test decoder's loop, token by token -/

section
variable {ci : CacheInit} {n : Nat} {prev : Pixel} {m : Memory} {px : List Pixel}

theorem decodeBody_of_le (hn : n ≤ px.length) (fuel : Nat) (bs : List Byte) :
    decodeBody ci n fuel prev m px bs = some (px, bs) := by
  unfold decodeBody
  exact if_pos hn

variable (hn : px.length < n) (fuel : Nat) (bs : List Byte)
include hn

theorem decodeBody_opRun {l : BitVec 6} (hl : LegalToken (.opRun l)) :
    decodeBody ci n (fuel + 1) prev m px (unitBytes (.opRun l) ++ bs) =
      decodeBody ci n fuel prev m (px ++ List.replicate (l.toNat + 1) prev) bs := by
  conv_lhs => unfold decodeBody
  rw [if_neg hn.not_ge, decodeToken_unitBytes hl.1 hl.2]

theorem decodeBody_tokenPixel {k : Instr} {p : Pixel} (hk : LegalToken k) (hrun : ∀ l, k ≠ .opRun l)
    (hp : tokenPixel ci prev m k = some p) :
    decodeBody ci n (fuel + 1) prev m px (unitBytes k ++ bs) =
      decodeBody ci n fuel p (Memory.write ci (hashOf p).toNat p m) (px ++ [p]) bs := by
  conv_lhs => unfold decodeBody
  rw [if_neg hn.not_ge, decodeToken_unitBytes hk.1 hk.2]
  dsimp only
  split
  · rename_i heq
    cases heq
  · rename_i heq
    cases heq
    exact absurd rfl (hrun _)
  · rename_i heq
    cases heq
    rw [hp]

end

/-- The loop reads the tokens' bytes as the tokens' pixels and leaves what follows them. -/
theorem TokensRead.decodeBody_eq {ci : CacheInit} {prev : Pixel} {m : Memory} {toks : List Instr} {px : List Pixel}
    (hr : TokensRead ci prev m toks px) {fuel n : Nat} {acc : List Pixel} (hfuel : toks.length ≤ fuel)
    (hn : acc.length + px.length = n) (rest : List Byte) :
    decodeBody ci n fuel prev m acc (toks.flatMap unitBytes ++ rest) = some (acc ++ px, rest) := by
  induction hr generalizing fuel acc with
  | nil =>
    rw [List.append_nil]
    exact decodeBody_of_le hn.ge fuel rest
  | run legal _ ih =>
    obtain ⟨fuel, rfl⟩ := Nat.exists_eq_succ_of_ne_zero (Nat.ne_zero_of_lt hfuel)
    rw [List.length_append, List.length_replicate] at hn
    rw [List.flatMap_cons, List.append_assoc, decodeBody_opRun (by omega) fuel _ legal,
      ih (Nat.le_of_succ_le_succ hfuel) (by rw [List.length_append, List.length_replicate]; omega), List.append_assoc]
  | pixel legal notRun read _ ih =>
    obtain ⟨fuel, rfl⟩ := Nat.exists_eq_succ_of_ne_zero (Nat.ne_zero_of_lt hfuel)
    rw [List.length_cons] at hn
    rw [List.flatMap_cons, List.append_assoc, decodeBody_tokenPixel (by omega) fuel _ legal notRun read,
      ih (Nat.le_of_succ_le_succ hfuel) (by rw [List.length_append, List.length_singleton]; omega), List.append_assoc]
    rfl

/-! ## The encoder's tokens stand for its pixels -/

section
variable {p : Pixel} {s : State} {ks : List Instr} {px : List Pixel}

/-- A pending run's token stands for the pixels of the run. -/
theorem TokensRead.before_pendingRun (hr : s.run.toNat ≤ 61) {m : Memory} (h : TokensRead s.cacheInit s.prev m ks px) :
    TokensRead s.cacheInit s.prev m (pendingRunTokens s ++ ks) (List.replicate s.run.toNat s.prev ++ px) := by
  have hlegal := pendingRunTokens_legal hr
  unfold pendingRunTokens at hlegal ⊢
  split
  · rename_i h0
    rw [h0]
    exact h
  · rename_i h0
    rw [if_neg h0, List.forall_mem_singleton] at hlegal
    have hpos : s.run.toNat ≠ 0 := fun e => h0 (BitVec.eq_of_toNat_eq e)
    have hlen : (s.run - 1).toNat + 1 = s.run.toNat := by
      rw [run_sub_one_toNat h0]
      omega
    have hread := TokensRead.run hlegal h
    rwa [hlen] at hread

/-- A PIXEL's tokens stand for the pixels pending before it and for its own, less those pending after it. -/
theorem TokensRead.before_pixel (hw : Memory.wf s.cacheInit s.cache = true) (hr : s.run.toNat ≤ 61)
    (h : TokensRead s.cacheInit p (nextCache p s) ks (List.replicate (nextRun p s).toNat p ++ px)) :
    TokensRead s.cacheInit s.prev s.cache (pixelTokens p s ++ ks)
      (List.replicate s.run.toNat s.prev ++ p :: px) := by
  by_cases hp : p = s.prev
  · rw [nextCache, if_pos hp, nextRun] at h
    rw [pixelTokens, if_pos hp]
    have hjoin : List.replicate s.run.toNat s.prev ++ p :: px = List.replicate (s.run.toNat + 1) s.prev ++ px := by
      rw [List.replicate_succ', List.append_assoc, hp]
      rfl
    rw [hjoin]
    by_cases hf : s.run + 1 = runMax ∨ s.pixRemain = 1
    · rw [if_neg (fun hn => hn.2 hf), hp] at h
      rw [if_pos hf]
      exact .run (legalToken_opRun hr) h
    · have hmax := (run_add_one_eq_runMax_iff hr).not.1 (not_or.1 hf).1
      have hrun : (s.run + 1).toNat = s.run.toNat + 1 := by bv_omega
      rw [if_pos ⟨hp, hf⟩, hrun, hp] at h
      rw [if_neg hf]
      exact h
  · rw [nextCache, if_neg hp, ownCache_eq_write hw, nextRun, if_neg (fun hn => hp hn.1)] at h
    rw [pixelTokens, if_neg hp, List.append_assoc]
    exact .before_pendingRun hr (.pixel ⟨ownToken_isToken p s, ownToken_wellFormed p s⟩ (ownToken_ne_opRun p s)
      (tokenPixel_ownToken p s) h)

@[simp] theorem pixelStep_cache (p : Pixel) (s : State) : (pixelStep p s).cache = nextCache p s := by rw [pixelStep_eq]; rfl

theorem nextRun_toNat_le (hr : s.run.toNat ≤ 61) : (nextRun p s).toNat ≤ 61 := by
  unfold nextRun
  split
  · rename_i hn
    have hmax := (run_add_one_eq_runMax_iff hr).not.1 (not_or.1 hn.2).1
    bv_omega
  · simp

/-- No run is pending after the last pixel (42_pixel_selector.md R144). -/
theorem nextRun_of_last (h1 : s.pixRemain = 1) : nextRun p s = 0 := if_neg fun hn => hn.2 (.inr h1)

end

/-- The PIXELs end the encode, and OUT grows by tokens that stand for the pending run and the normalised pixels, and by the
end marker. -/
def EncodesPixels (px : List Pixel) (s : State) : Prop :=
  ∃ toks, (takePixels px s).mode = .done ∧
    (takePixels px s).out = s.out ++ toks.flatMap unitBytes ++ endMarkerBytes ∧
    TokensRead s.cacheInit s.prev s.cache toks (List.replicate s.run.toNat s.prev ++ px.map (normalise s.descCh))

section
variable {s : State} (hm : s.mode = .encoding) (hr : s.run.toNat ≤ 61) (hw : Memory.wf s.cacheInit s.cache = true)
include hm

/-- In ENCODING the first PIXEL of a list is taken. -/
theorem takePixels_cons (pin : Pixel) (px : List Pixel) :
    takePixels (pin :: px) s = takePixels px (pixelStep (normalise s.descCh pin) s) :=
  congrArg (takePixels px) (if_pos hm)

include hr hw

/-- The last pixel leaves no run pending and ends the encode. -/
theorem encodesPixels_last (pin : Pixel) (h1 : s.pixRemain = 1) : EncodesPixels [pin] s := by
  rw [EncodesPixels, takePixels_cons hm, List.map_singleton]
  generalize normalise s.descCh pin = p
  have hread : TokensRead s.cacheInit s.prev s.cache (pixelTokens p s ++ [])
      (List.replicate s.run.toNat s.prev ++ [p]) := by
    refine .before_pixel hw hr ?_
    rw [nextRun_of_last h1]
    exact .nil
  rw [List.append_nil] at hread
  refine ⟨pixelTokens p s, ?_, ?_, hread⟩
  · exact (pixelStep_mode p s).trans (if_pos h1)
  · exact (pixelStep_out p s).trans (by rw [lastPixelBytes_of_last h1])

/-- Before the last pixel, a PIXEL's tokens stand before those of the PIXELs that follow. -/
theorem encodesPixels_cons {pin : Pixel} {px : List Pixel} (h1 : s.pixRemain ≠ 1)
    (hrest : EncodesPixels px (pixelStep (normalise s.descCh pin) s)) : EncodesPixels (pin :: px) s := by
  rw [EncodesPixels, takePixels_cons hm, List.map_cons]
  obtain ⟨toks, hdone, hbytes, hread⟩ := hrest
  generalize normalise s.descCh pin = p at hdone hbytes hread ⊢
  have hnone : lastPixelBytes s = [] := if_neg h1
  rw [pixelStep_cacheInit, pixelStep_prev, pixelStep_cache, pixelStep_run, pixelStep_descCh] at hread
  refine ⟨pixelTokens p s ++ toks, hdone, ?_, .before_pixel hw hr hread⟩
  rw [hbytes, pixelStep_out, hnone, List.append_nil, List.flatMap_append, List.append_assoc s.out]

end

/-- All the pixels still to come, one after the other (42_pixel_selector.md R148). -/
theorem encodesPixels {px : List Pixel} {s : State} (hm : s.mode = .encoding) (hr : s.run.toNat ≤ 61)
    (hw : Memory.wf s.cacheInit s.cache = true) (hn : px.length = s.pixRemain.toNat) (h0 : s.pixRemain ≠ 0) :
    EncodesPixels px s := by
  induction px generalizing s with
  | nil => exact absurd (BitVec.eq_of_toNat_eq hn.symm) h0
  | cons pin px ih =>
    rw [List.length_cons] at hn
    by_cases h1 : s.pixRemain = 1
    · rw [h1] at hn
      obtain rfl : px = [] := List.length_eq_zero_iff.1 (Nat.succ.inj hn)
      exact encodesPixels_last hm hr hw pin h1
    · refine encodesPixels_cons hm hr hw h1 (ih ?_ ?_ ?_ ?_ ?_)
      · rw [pixelStep_mode, if_neg h1, hm]
      · rw [pixelStep_run]
        exact nextRun_toNat_le hr
      · rw [pixelStep_cacheInit]
        exact pixelStep_wf hw _
      · rw [pixelStep_pixRemain]
        bv_omega
      · rw [pixelStep_pixRemain]
        exact (last_iff _).not.2 h1

/-- The test decoder reads a header, tokens and the end marker as the descriptor and the tokens' pixels. -/
theorem decodeStream_of_tokensRead {ci : CacheInit} {toks : List Instr} {px : List Pixel}
    (hr : TokensRead ci initialPrev [] toks px) {w h : BitVec 32} (hn : px.length = w.toNat * h.toNat) (ch : Byte)
    (cs : BitVec 1) :
    decodeStream ci (headerBytes w h ch cs ++ toks.flatMap unitBytes ++ endMarkerBytes) = some ⟨w, h, ch, cs, px⟩ := by
  have hfuel : toks.length ≤ (headerBytes w h ch cs ++ toks.flatMap unitBytes ++ endMarkerBytes).length := by
    obtain ⟨hlen, -⟩ := legalTokens_byte_bounds hr.legal
    simp only [List.length_append]
    omega
  have hbody := hr.decodeBody_eq hfuel ((Nat.zero_add _).trans hn) (acc := []) endMarkerBytes
  rw [decodeStream, List.append_assoc, List.take_left' (headerBytes_length ..), List.drop_left' (headerBytes_length ..),
    decodeHeader_headerBytes, ← List.append_assoc]
  simp only [hbody, List.nil_append, if_true]

/-- Settles O57: START leaves no run pending and the decoder's own cache, the PIXELs' tokens stand for their pixels, and
the DRAINs write SENT and the sink only. -/
theorem losslessRoundTrip : Obligations.LosslessRoundTrip := by
  intro w h ch cs cmds s hm hs hw
  have hx := exec_start_valid cs ((cfgReady_iff s).2 ⟨hm, hs⟩) hw.valid
  have hcount : (afterStart w h ch cs s).pixRemain.toNat = w.toNat * h.toNat := pixelCount_toNat w h
  obtain ⟨toks, hdone, hout, hread⟩ := encodesPixels (px := pixelsOf cmds) (s := afterStart w h ch cs s) rfl
    (Nat.zero_le _) rfl (hw.count.trans hcount.symm) (pixelCount_ne_zero hw.valid.1 hw.valid.2.1)
  obtain ⟨n, k, ht⟩ := runAll_takePixels hw.commands (afterStart w h ch cs s)
  have hstream : (withSink n k (takePixels (pixelsOf cmds) (afterStart w h ch cs s))).out = _ := hout
  refine ⟨_, (runAll_cons_next hx).trans ht, hdone, ?_⟩
  rw [hstream]
  exact decodeStream_of_tokensRead hread ((List.length_map _).trans hw.count) ch cs

end Sys2Proof.Machine
end

section
/-! The byte-packer (44_byte_packer_termination.md): the end marker's row, DRAIN, and what the sink holds at a successful
end. -/

namespace Sys2Proof.Machine

/-- Settles O14: the row appends its encoding and sets MODE. -/
theorem endMarkerFinishesStream : Obligations.EndMarkerFinishesStream := unitsEmitTheirEncoding .endMarker rfl rfl

/-! ## DRAIN -/

theorem exec_drain_valid {s : State} (hv : outValid s = true) : exec .drain s = .next (transferByte s) := if_pos hv

theorem exec_drain_held {s : State} (hv : outValid s = false) : exec .drain s = .next s := if_neg (Bool.eq_false_iff.1 hv)

theorem outValid_of_sent_eq {s : State} (hs : s.sent = s.out.length) : outValid s = false := by
  simp [outValid, hs]

/-- Settles O33: the byte OUT[SENT] is there, and the transfer carries it with `out_last`. -/
theorem drainTransfersNextByte : Obligations.DrainTransfersNextByte := by
  intro s hs hm
  refine ⟨s.out[s.sent], List.getElem?_eq_getElem hs, ?_⟩
  have hbyte : outByte s = s.out[s.sent] := (List.getElem_eq_getD _).symm
  rw [exec_drain_valid ((outValid_iff s).2 ⟨hs, hm⟩), transferByte, hbyte, outLast, Bool.decide_and]

/-- Settles O34: on the sink's turn the offer is taken where `out_valid` is 1 and stands where it is 0. -/
theorem drainHeldWhenQueueEmpty : Obligations.DrainHeldWhenQueueEmpty := by
  intro s
  refine ⟨fun hs => exec_drain_held (outValid_of_sent_eq hs), fun n ts hb ht ho => ?_⟩
  obtain ⟨-, -, hout, -⟩ := stepRunsDecodedCommand s .drain ts
  have hstep := hout n hb ht ho
  refine ⟨fun hs => ?_, fun hs hm => ?_⟩
  · rw [hstep, if_neg (Bool.eq_false_iff.1 (outValid_of_sent_eq hs))]
    exact exec_drain_held (outValid_of_sent_eq hs)
  · have hv : outValid s = true := (outValid_iff s).2 ⟨hs, hm⟩
    exact ⟨by rw [hstep, if_pos hv], hv⟩

/-! ## A successful end -/

/-- What the sink holds grows by one transfer for each byte delivered (44_byte_packer_termination.md R191). -/
theorem delivered_of_sent_succ {s : State} {n : Nat} (hs : s.sent = n + 1) :
    delivered s = delivered { s with sent := n } ++
      [⟨s.out.getD n 0, decide (s.mode = .done) && decide (n + 1 = s.out.length)⟩] := by
  simp only [delivered, hs, List.range_succ, List.map_append, List.map_singleton]

/-- Once all of a finished stream is delivered, `out_last` was 1 on its final byte and on no other
(44_byte_packer_termination.md R192). -/
theorem delivered_of_done {s : State} {front : List Byte} {b : Byte} (hm : s.mode = .done) (ho : s.out = front ++ [b])
    (hs : s.sent = s.out.length) : delivered s = front.map (⟨·, false⟩) ++ [⟨b, true⟩] := by
  have hlen : s.out.length = front.length + 1 := by rw [ho, List.length_append, List.length_singleton]
  have hlt : front.length < s.out.length := hlen ▸ Nat.lt_succ_self _
  rw [delivered_of_sent_succ (hs.trans hlen), delivered_of_not_last hlt.le (.inr hlt)]
  simp [hm, ho]

/-- Settles O45: all of OUT is delivered, and it ends in the end marker's 0x01. -/
theorem successReachedTheSink : Obligations.SuccessReachedTheSink := by
  intro s h hsucc
  obtain ⟨hm, hq⟩ := hsucc
  obtain ⟨earlier, hsink⟩ := h.sink_agrees
  obtain ⟨body, hbody⟩ := h.done_ends hm
  have hsent : s.sent = s.out.length := h.sent_bound.antisymm ((outQueue_eq_nil_iff s).1 hq)
  have hout : s.out = (body ++ List.replicate 7 0) ++ [0x01] := by rw [hbody, List.append_assoc]; rfl
  refine ⟨earlier, (body ++ List.replicate 7 0).map (⟨·, false⟩), ?_, ?_, fun x hx => ?_⟩
  · rw [hsink, delivered_of_done hm hout hsent, List.append_assoc]
  · rw [hout, List.map_map]
    exact congrArg (· ++ [0x01]) (List.map_id _).symm
  · obtain ⟨b, -, rfl⟩ := List.mem_map.1 hx
    rfl

end Sys2Proof.Machine
end

section
/-! Errors and hazards (60_exceptions.md): the STARTs that fail their checks, SINKFAIL, what holds in ERROR, and PIXEL and
DRAIN, which raise nothing and do not disturb each other. -/

namespace Sys2Proof.Machine

/-! ## A START that fails its checks -/

/-- STATUS after a START that failed its checks: the error's code above MODE = 3 (60_exceptions.md R216). -/
theorem status_afterBadStart (e : Err) (s : State) : status (afterBadStart e s) = e.code ++ (3 : BitVec 2) := rfl

/-- Settles O16: the dimensions are the first check, and its error entry follows the new stream. -/
theorem startInvalidDimensions : Obligations.StartInvalidDimensions := by
  intro w h ch cs s hm hs h0
  exact ⟨_, exec_start_bad cs ((cfgReady_iff s).2 ⟨hm, hs⟩) (descriptorError_of_zero h0 ch),
    (status_afterBadStart _ s).trans (by decide), rfl⟩

/-- Settles O17: with the dimensions passed, the channel count is what fails. -/
theorem startUnsupportedChannels : Obligations.StartUnsupportedChannels := by
  intro w h ch cs s hm hs hw hh h3 h4
  exact ⟨_, exec_start_bad cs ((cfgReady_iff s).2 ⟨hm, hs⟩) (descriptorError_of_channels hw hh h3 h4),
    (status_afterBadStart _ s).trans (by decide), rfl⟩

/-! ## SINKFAIL -/

theorem exec_sinkfail_raises {s : State} (hr : sinkFailRaises s = true) :
    exec .sinkfail s = .next (raise .sinkFailure s) := if_pos hr

theorem exec_sinkfail_ignored {s : State} (hr : sinkFailRaises s = false) : exec .sinkfail s = .next s :=
  if_neg (Bool.eq_false_iff.1 hr)

/-- Settles O36: SINKFAIL's condition decides, and its error entry cuts OUT to the bytes sent. -/
theorem sinkFailRaisesOrIsIgnored : Obligations.SinkFailRaisesOrIsIgnored := by
  intro s hs
  rw [← sinkFailRaises_iff]
  refine ⟨fun hr => ?_, fun hr => exec_sinkfail_ignored (Bool.eq_false_iff.2 hr)⟩
  rw [exec_sinkfail_raises hr, raise_eq_afterError hs]

/-! ## ERROR -/

/-- Settles O50: outside ENCODING no PIXEL is taken, and ERROR's OUTQ is empty, so that a START can be. -/
theorem errorStateCommands : Obligations.ErrorStateCommands := by
  intro s h hfail
  have hm : s.mode = .error := hfail
  have hne : s.mode ≠ .encoding := by simp [hm]
  have hqueue : s.sent = s.out.length := h.error_queue_empty hm
  have hvalid : outValid s = false := outValid_of_sent_eq hqueue
  have hignored : sinkFailRaises s = false := by simp [sinkFailRaises, hm]
  exact ⟨fun r g b a => exec_pixel_held r g b a hne, exec_drain_held hvalid, exec_sinkfail_ignored hignored,
    (cfgReady_iff s).2 ⟨hne, hqueue⟩, decide_eq_false hne, hvalid, rfl, h.err_iff_error.2 hm, by rw [status, hm]; rfl⟩

/-! ## PIXEL and DRAIN raise nothing -/

/-- A PIXEL counts PIX_REMAIN down from at least 1 in ENCODING, so the count never wraps (10_state.md R42). -/
theorem Inv.pixRemain_sub_one_le {s : State} (h : Inv s) (hm : s.mode = .encoding) :
    (s.pixRemain - 1).toNat ≤ s.pixRemain.toNat := by
  have hpos : s.pixRemain ≠ 0 := h.remain_iff_encoding.2 hm
  bv_omega

theorem pixelStep_mode_ne_error {s : State} (hm : s.mode = .encoding) (p : Pixel) : (pixelStep p s).mode ≠ .error := by
  rw [pixelStep_eq]
  exact afterPixel_mode_ne_error _ _ _ _ hm

/-- Settles O49: a held command leaves the state, a DRAIN writes SENT and the sink only, and a PIXEL leaves ERR and no run
over 61. -/
theorem pixelAndDrainRaiseNothing : Obligations.PixelAndDrainRaiseNothing := by
  intro i s hi h
  obtain ⟨r, g, b, a, rfl⟩ | rfl := isPixelOrDrain_cases hi
  · by_cases hm : s.mode = .encoding
    · refine ⟨_, exec_pixel_encoding r g b a hm, pixelStep_err _ s, fun he => absurd he (pixelStep_mode_ne_error hm _),
        (inv_pixelStep h hm _).run_bound, ?_⟩
      rw [pixelStep_pixRemain]
      exact h.pixRemain_sub_one_le hm
    · exact ⟨s, exec_pixel_held r g b a hm, rfl, id, h.run_bound, le_rfl⟩
  · obtain ⟨n, k, hx⟩ := exec_drain_frame s
    exact ⟨_, hx, rfl, id, h.run_bound, le_rfl⟩

/-! ## PIXEL and DRAIN in either order -/

section
variable {s : State} (hs : s.sent < s.out.length) (p : Pixel)
include hs

/-- A PIXEL leaves the byte at the head of a nonempty OUTQ: it adds to the end of OUT. -/
theorem outByte_pixelStep : outByte (pixelStep p s) = outByte s := by
  rw [outByte, pixelStep_sent, pixelStep_out, List.append_assoc]
  exact List.getD_append _ _ _ _ hs

/-- A byte that was pending before a PIXEL is not the stream's final one after it: the last pixel adds the end marker
(44_byte_packer_termination.md R192). -/
theorem outLast_pixelStep (hm : s.mode = .encoding) : outLast (pixelStep p s) = false := by
  by_cases h1 : s.pixRemain = 1
  · have hlen : s.out.length + 8 ≤ (pixelStep p s).out.length := by
      rw [pixelStep_out, lastPixelBytes_of_last h1]
      simp [endMarkerBytes]
    have hnot : (pixelStep p s).sent + 1 ≠ (pixelStep p s).out.length := by
      rw [pixelStep_sent]
      omega
    rw [outLast, decide_eq_false hnot, Bool.and_false]
  · have hnot : (pixelStep p s).mode ≠ .done := by
      rw [pixelStep_mode, if_neg h1, hm]
      decide
    rw [outLast, decide_eq_false hnot, Bool.false_and]

theorem outValid_pixelStep (hm : s.mode = .encoding) : outValid (pixelStep p s) = true := by
  refine (outValid_iff _).2 ⟨?_, pixelStep_mode_ne_error hm p⟩
  rw [pixelStep_sent, pixelStep_out, List.length_append, List.length_append]
  omega

end

/-- In ENCODING a DRAIN's transfer has no `out_last` (44_byte_packer_termination.md R192). -/
theorem outLast_of_encoding {s : State} (hm : s.mode = .encoding) : outLast s = false := by
  simp [outLast, hm]

/-- A PIXEL and the transfer of a byte pending before it commute: the byte and its `out_last` are the same before and after
the PIXEL, which neither reads nor writes SENT and the sink (60_exceptions.md R221). -/
theorem transferByte_takePixel {s : State} (hm : s.mode = .encoding) (hs : s.sent < s.out.length) (pin : Pixel) :
    transferByte (takePixel s pin) = takePixel (transferByte s) pin := by
  have hstep : takePixel s pin = pixelStep (normalise s.descCh pin) s := if_pos hm
  calc transferByte (takePixel s pin)
    _ = withSink (s.sent + 1) (s.sink ++ [⟨outByte s, outLast s⟩]) (takePixel s pin) := by
      rw [transferByte, hstep, outByte_pixelStep hs, outLast_pixelStep hs _ hm, outLast_of_encoding hm, pixelStep_sent,
        pixelStep_sink]
      rfl
    _ = takePixel (transferByte s) pin := (takePixel_withSink _ _ s pin).symm

/-- Settles O35: in either order both commands are taken, and the transfer commutes with the PIXEL. -/
theorem drainCommutesWithPixel : Obligations.DrainCommutesWithPixel := by
  intro r g b a s _ hm hs
  have hvalid : outValid s = true := (outValid_iff s).2 ⟨hs, by simp [hm]⟩
  have hvalid' : outValid (takePixel s ⟨r, g, b, a⟩) = true := by
    rw [takePixel, if_pos hm]
    exact outValid_pixelStep hs _ hm
  refine ⟨takePixel (transferByte s) ⟨r, g, b, a⟩, ?_, ?_⟩
  · rw [runAll_cons_next (exec_drain_valid hvalid), runAll_cons_next (exec_pixel_takePixel ..)]
    rfl
  · rw [runAll_cons_next (exec_pixel_takePixel ..), runAll_cons_next (exec_drain_valid hvalid'),
      transferByte_takePixel hm hs]
    rfl

end Sys2Proof.Machine
end

section
/-! RESET, and the cache between consecutive pixels (70_reset_and_hazards.md R240, R244). -/

namespace Sys2Proof.Machine

/-- Settles O37: `resetBlock` writes each element's reset value, and CacheInit's empty list reads initial in every slot. -/
theorem resetRestoresBlock : Obligations.ResetRestoresBlock := fun s => ⟨[], allInitial_nil s.cacheInit, rfl⟩

/-! ## Consecutive pixels of a 4-channel encode -/

/-- With no run pending and more pixels to come, a pixel that differs from PREV appends its own token alone
(42_pixel_selector.md R146, R149). -/
theorem pixelStep_out_own {p : Pixel} {s : State} (hp : p ≠ s.prev) (hr : s.run = 0) (h1 : s.pixRemain ≠ 1) :
    (pixelStep p s).out = s.out ++ unitBytes (ownToken p s) := by
  have hlast : lastPixelBytes s = [] := if_neg h1
  have hpending : pendingRunTokens s = [] := if_pos hr
  rw [pixelStep_out, pixelTokens, if_neg hp, hpending, hlast, List.append_nil, List.nil_append, List.flatMap_singleton]

/-- A PIXEL from `s` to `t` in the middle of a 4-channel encode whose pixel `p` differs from PREV: the encode goes on with
no run pending, and slot hash(p) holds `p` (42_pixel_selector.md R145, 41_color_cache.md R123). -/
structure OwnTokenStep (p : Pixel) (s t : State) : Prop where
  taken : exec (.pixel p.r p.g p.b p.a) s = .next t
  inv : Inv t
  encoding : t.mode = .encoding
  channels_four : t.descCh = 4
  remain_eq : t.pixRemain = s.pixRemain - 1
  prev_eq : t.prev = p
  run_zero : t.run = 0
  slot_holds : probe (hashOf p) t = some p
  slots_kept : ∀ h : BitVec 6, h ≠ hashOf p → probe h t = probe h s
  own_token : s.run = 0 → t.out = s.out ++ unitBytes (ownToken p s)

theorem ownTokenStep_pixelStep {p : Pixel} {s : State} (h : Inv s) (hm : s.mode = .encoding) (h4 : s.descCh = 4)
    (h1 : s.pixRemain ≠ 1) (hp : p ≠ s.prev) : OwnTokenStep p s (pixelStep p s) := by
  have hx : exec (.pixel p.r p.g p.b p.a) s = .next (pixelStep p s) := by
    rw [exec_pixel_encoding p.r p.g p.b p.a hm, normalise, if_pos h4]
  exact {
    taken := hx
    inv := inv_exec h rfl hx
    encoding := by rw [pixelStep_mode, if_neg h1, hm]
    channels_four := (pixelStep_descCh p s).trans h4
    remain_eq := pixelStep_pixRemain p s
    prev_eq := pixelStep_prev p s
    run_zero := by rw [pixelStep_run, nextRun, if_neg fun hjoin => hp hjoin.1]
    slot_holds := probe_pixelStep_hash h.cache_canonical hp
    slots_kept := fun _ hh => probe_pixelStep_other hh
    own_token := fun hr => pixelStep_out_own hp hr h1 }

/-- After such a step the next pixel, if it is another one, makes such a step too. -/
theorem OwnTokenStep.next {p q : Pixel} {s t : State} (h : OwnTokenStep p s t) (hrem : 2 < s.pixRemain.toNat)
    (hq : q ≠ p) : OwnTokenStep q t (pixelStep q t) := by
  refine ownTokenStep_pixelStep h.inv h.encoding h.channels_four ?_ (h.prev_eq.symm ▸ hq)
  rw [h.remain_eq]
  bv_omega

/-- Settles O32: the first A leaves A in its slot; B leaves that slot if its hash differs and overwrites it if not, so the
second A hits or misses. -/
theorem cacheReadAfterWrite : Obligations.CacheReadAfterWrite := by
  intro A B s hinv hm h4 hrem hA hAB
  have hstep1 := ownTokenStep_pixelStep hinv hm h4 (by bv_omega) hA
  have hstep2 := hstep1.next (by omega) hAB.symm
  have hstep3 := hstep2.next (by rw [hstep1.remain_eq]; bv_omega) hAB
  have hout := hstep3.own_token hstep2.run_zero
  refine ⟨_, _, _, hstep1.taken, hstep2.taken, hstep3.taken, fun hne => ?_, fun heq => ?_⟩
  · have hhit := (hstep2.slots_kept _ hne).trans hstep1.slot_holds
    rw [hout, (own_of_hit hhit).1]
  · have hslot := heq.symm ▸ hstep2.slot_holds
    have hmiss : probe (hashOf A) (pixelStep B (pixelStep A s)) ≠ some A := by
      rw [hslot]
      exact fun h => hAB (Option.some.inj h).symm
    exact ⟨hstep1.slot_holds, hslot, _, missToken_isToken .., missToken_ne_opIndex _ _,
      by rw [hout, (own_of_miss hmiss).1]⟩

end Sys2Proof.Machine
end
